-- ==== Sys2Proof/Word.lean ====
section
/-! DEFINITION. The two word types of the ADPCM decoder core: the byte of an input beat and the
4-bit nibble of a payload byte (spec/30_encoding.md R52 to R56). -/

namespace Sys2Proof

/-- One byte of a frame, the data part of an input beat (R44, R124). -/
abbrev Byte := BitVec 8

/-- One 4-bit ADPCM code, half of a payload byte (R55, R56). -/
abbrev Nibble := BitVec 4

end Sys2Proof
end

