-- ==== Sys2Proof/Config.lean ====
section
/-! DEFINITION. What is fixed for one machine and does not change as it runs: the structural
constants of spec/00_scope.md R6 and R8, the shape of the two constant tables (R7, R31, R33), the
environment parameter `ACC_MODE` (spec/43_frame_accumulator.md R145), and the free values that
stand for what a reset input leaves unspecified (spec/10_state.md R25). -/

namespace Sys2Proof

namespace Config

/-- `FRAME_BYTES`: the length of a nominal frame (R6). -/
abbrev frameBytes : Nat := 131

/-- `HEADER_BYTES`: bytes 0, 1 and 2 of a frame (R6). -/
abbrev headerBytes : Nat := 3

/-- `PAYLOAD_BYTES`: bytes 3 to 130 of a nominal frame (R6). -/
abbrev payloadBytes : Nat := 128

/-- `FRAME_NIBBLES`: nibbles, and samples, of a nominal frame (R6). -/
abbrev frameNibbles : Nat := 256

/-- `INDEX_MAX`: the largest quantizer index (R6); `INDEX_MIN` is 0. -/
abbrev indexMax : Nat := 88

/-- `SAMPLE_MIN`: the lower output saturation bound (R6). -/
abbrev sampleMin : Int := -32768

/-- `SAMPLE_MAX`: the upper output saturation bound (R6). -/
abbrev sampleMax : Int := 32767

/-- `MAX_FRAME_BYTES`: the longest frame to which the spec gives a meaning (R8, decision D7). -/
abbrev maxFrameBytes : Nat := 17480

/-- Free value: what `PV` holds after the reset input was taken, for each reset taken in the run
(R25, R171: "unspecified"; log entry 5). It has no body, so no proof can see it. -/
opaque freePv : Nat → BitVec 32

/-- Free value: what `INDEX` holds after the reset input was taken (R25, R171; log entry 5). -/
opaque freeIndex : Nat → BitVec 7

/-- Free value: what `HDR_HI` holds after the reset input was taken (R25, R171; log entry 5). -/
opaque freeHdrHi : Nat → BitVec 8

end Config

/-- The contents of the two read-only tables, which the spec makes configuration (R7, R32, R34).
`STEP_ROM` has 89 entries of at most 15 significant bits (R31, R44), so every entry is at most
32767; `INDEX_ROM` has 16 signed entries in -128 to 127 (R33). -/
structure Rom where
  /-- `STEP_ROM`, addressed by `INDEX` (R31). -/
  stepRom  : Vector (BitVec 15) 89
  /-- `INDEX_ROM`, addressed by the whole nibble; each entry is read as a signed number (R33). -/
  indexRom : Vector (BitVec 8) 16
  deriving DecidableEq, Repr

/-- The table contents are among those R7 allows: every step size is positive. The other limits of
R7 (at most 32767; -128 to 127) hold of every `Rom` by the widths of its entries. -/
abbrev Rom.Legal (r : Rom) : Prop := ∀ i : Fin 89, 1 ≤ (r.stepRom[i]).toNat

/-- The environment parameter `ACC_MODE` of the frame accumulator (R145, decision D15). -/
inductive AccMode where
  /-- The reference: the whole buffer becomes one frame (R141). -/
  | drainAll
  /-- Exactly 131 bytes become the frame and the rest is kept (R145). -/
  | strict131
  deriving DecidableEq, Repr

end Sys2Proof
end

