-- ==== Sys2Proof/Syntax.lean ====
section
/-! DEFINITION. The core's operations, one constructor for each of the 19 rows of
spec/opcode_table.json (spec/30_encoding.md R60), and the frame positions that select among them
(R62: "By position only"). -/

namespace Sys2Proof

/-- One operation of the core (R60). The header operations carry the beat's byte; a nibble
operation has no operand, its four bits being its code. -/
inductive Instr where
  /-- HDR_PV_HI: frame byte 0, the most significant byte of the seed predicted value (R70). -/
  | hdrPvHi (v : Byte)
  /-- HDR_PV_LO: frame byte 1, the least significant byte of the seed predicted value (R71). -/
  | hdrPvLo (v : Byte)
  /-- HDR_INDEX: frame byte 2, the seed quantizer index (R72). -/
  | hdrIndex (v : Byte)
  /-- NIB_0: positive sign, magnitude 0 (R91). -/
  | nib0
  /-- NIB_1: positive sign, magnitude 1 (R92). -/
  | nib1
  /-- NIB_2: positive sign, magnitude 2 (R93). -/
  | nib2
  /-- NIB_3: positive sign, magnitude 3 (R94). -/
  | nib3
  /-- NIB_4: positive sign, magnitude 4 (R95). -/
  | nib4
  /-- NIB_5: positive sign, magnitude 5 (R96). -/
  | nib5
  /-- NIB_6: positive sign, magnitude 6 (R97). -/
  | nib6
  /-- NIB_7: positive sign, magnitude 7 (R98). -/
  | nib7
  /-- NIB_8: negative sign, magnitude 0 (R99). -/
  | nib8
  /-- NIB_9: negative sign, magnitude 1 (R100). -/
  | nib9
  /-- NIB_A: negative sign, magnitude 2 (R101). -/
  | nibA
  /-- NIB_B: negative sign, magnitude 3 (R102). -/
  | nibB
  /-- NIB_C: negative sign, magnitude 4 (R103). -/
  | nibC
  /-- NIB_D: negative sign, magnitude 5 (R104). -/
  | nibD
  /-- NIB_E: negative sign, magnitude 6 (R105). -/
  | nibE
  /-- NIB_F: negative sign, magnitude 7 (R106). -/
  | nibF
  deriving DecidableEq, Repr

/-- Where in a frame the byte (or the half byte) to be decoded stands (R36, R62). The position, not
the byte's bits, selects the format. -/
inductive Position where
  /-- Frame offset 0: format H0 (R52). -/
  | h0
  /-- Frame offset 1: format H1 (R53). -/
  | h1
  /-- Frame offset 2: format H2 (R54). -/
  | h2
  /-- A payload byte, its first nibble, bits 7:4 (R39, R55). -/
  | payHigh
  /-- A payload byte, its second nibble, bits 3:0 (R39, R55). -/
  | payLow
  /-- A byte of a frame already in error (R130). -/
  | drop
  deriving DecidableEq, Repr

end Sys2Proof
end

