-- ==== Sys2Proof/WellFormed.lean ====
section
/-! DEFINITION. Which operations are well formed: spec/30_encoding.md R61 names exactly one illegal
encoding class, format H2 with a seed index of 89 to 255. -/

namespace Sys2Proof

/-- The operation's encoding is legal (R61). An ill-formed HDR_INDEX is still an operation of the
core: it raises MalformedFrame (R72). -/
def Instr.wellFormed : Instr → Bool
  | .hdrPvHi _ => true
  | .hdrPvLo _ => true
  | .hdrIndex v => decide (v.toNat ≤ Config.indexMax)
  | .nib0 => true
  | .nib1 => true
  | .nib2 => true
  | .nib3 => true
  | .nib4 => true
  | .nib5 => true
  | .nib6 => true
  | .nib7 => true
  | .nib8 => true
  | .nib9 => true
  | .nibA => true
  | .nibB => true
  | .nibC => true
  | .nibD => true
  | .nibE => true
  | .nibF => true

end Sys2Proof
end

