-- ==== Sys2Proof/Decode.lean ====
section
/-! DEFINITION. The decoder, total on every byte at every frame position (spec/30_encoding.md R52 to
R62), the encoder, and the reading of spec/opcode_table.json's own words. -/

namespace Sys2Proof

/-- `NH = v[7:4]`, the first nibble of a payload byte (R55, R59). -/
def highNibble (v : Byte) : Nibble := v.extractLsb' 4 4

/-- `NL = v[3:0]`, the second nibble of a payload byte (R55, R59). -/
def lowNibble (v : Byte) : Nibble := v.extractLsb' 0 4

/-- Two nibbles packed into a payload byte, the first into bits 7:4 (R55, R64). -/
def payloadByte (hi lo : Nibble) : Byte := hi ++ lo

/-- The operation a nibble selects (R60, format N of R56). -/
def ofNibble (n : Nibble) : Instr :=
  match n.toNat with
  | 0 => .nib0
  | 1 => .nib1
  | 2 => .nib2
  | 3 => .nib3
  | 4 => .nib4
  | 5 => .nib5
  | 6 => .nib6
  | 7 => .nib7
  | 8 => .nib8
  | 9 => .nib9
  | 10 => .nibA
  | 11 => .nibB
  | 12 => .nibC
  | 13 => .nibD
  | 14 => .nibE
  | _ => .nibF

/-- What the decoder answers. -/
inductive Decoded where
  /-- The byte, or half byte, is this operation. -/
  | instr (i : Instr)
  /-- The byte belongs to a frame already in error: it is discarded, and no operation is applied
  (R16, R130). -/
  | discarded
  deriving DecidableEq, Repr

/-- The decoder (R60, R62): the position selects the format, the byte fills its fields. -/
def decode (pos : Position) (v : Byte) : Decoded :=
  match pos with
  | .h0 => .instr (.hdrPvHi v)
  | .h1 => .instr (.hdrPvLo v)
  | .h2 => .instr (.hdrIndex v)
  | .payHigh => .instr (ofNibble (highNibble v))
  | .payLow => .instr (ofNibble (lowNibble v))
  | .drop => .discarded

/-- The operation decoded, if there is one. -/
def Decoded.instr? : Decoded → Option Instr
  | .instr i => some i
  | .discarded => none

/-- The four bits of a nibble operation, from the encoding column of R60; none for a header
operation. -/
def nibbleCode : Instr → Option Nibble
  | .hdrPvHi _ => none
  | .hdrPvLo _ => none
  | .hdrIndex _ => none
  | .nib0 => some 0b0000#4
  | .nib1 => some 0b0001#4
  | .nib2 => some 0b0010#4
  | .nib3 => some 0b0011#4
  | .nib4 => some 0b0100#4
  | .nib5 => some 0b0101#4
  | .nib6 => some 0b0110#4
  | .nib7 => some 0b0111#4
  | .nib8 => some 0b1000#4
  | .nib9 => some 0b1001#4
  | .nibA => some 0b1010#4
  | .nibB => some 0b1011#4
  | .nibC => some 0b1100#4
  | .nibD => some 0b1101#4
  | .nibE => some 0b1110#4
  | .nibF => some 0b1111#4

/-- The word of an operation, in whole bytes: the beat's byte for a header operation, the code in
bits 3:0 for a nibble operation (R52 to R56, R60). -/
def encode : Instr → Byte
  | .hdrPvHi v => v
  | .hdrPvLo v => v
  | .hdrIndex v => v
  | .nib0 => 0b00000000#8
  | .nib1 => 0b00000001#8
  | .nib2 => 0b00000010#8
  | .nib3 => 0b00000011#8
  | .nib4 => 0b00000100#8
  | .nib5 => 0b00000101#8
  | .nib6 => 0b00000110#8
  | .nib7 => 0b00000111#8
  | .nib8 => 0b00001000#8
  | .nib9 => 0b00001001#8
  | .nibA => 0b00001010#8
  | .nibB => 0b00001011#8
  | .nibC => 0b00001100#8
  | .nibD => 0b00001101#8
  | .nibE => 0b00001110#8
  | .nibF => 0b00001111#8

/-- The position at which `encode` lays an operation's word: a nibble's word has its code in the low
half of the byte. -/
def homePosition : Instr → Position
  | .hdrPvHi _ => .h0
  | .hdrPvLo _ => .h1
  | .hdrIndex _ => .h2
  | .nib0 => .payLow
  | .nib1 => .payLow
  | .nib2 => .payLow
  | .nib3 => .payLow
  | .nib4 => .payLow
  | .nib5 => .payLow
  | .nib6 => .payLow
  | .nib7 => .payLow
  | .nib8 => .payLow
  | .nib9 => .payLow
  | .nibA => .payLow
  | .nibB => .payLow
  | .nibC => .payLow
  | .nibD => .payLow
  | .nibE => .payLow
  | .nibF => .payLow

/-- The position at which a word of spec/opcode_table.json, given without one, is read: a word whose
bits 7:4 are zero is a nibble row's (bits 3:0), any other a header byte at the position that
follows reset. DESIGN CHOICE, log entry 9: the table's header rows have no fixed bit, so a word
alone does not say which row it is (R62). -/
def tablePosition (w : Nat) : Position := if w < 16 then .payLow else .h0

/-- The operation the decoder reads from a word of spec/opcode_table.json; no word is longer than one
byte (R62). -/
def decodeTableWord (nbits w : Nat) : Option Instr :=
  if nbits ≤ 8 ∧ w < 256 then (decode (tablePosition w) (BitVec.ofNat 8 w)).instr? else none

end Sys2Proof
end

