-- ==== Sys2Proof/Machine/Rom.lean ====
section
/-! DEFINITION. The default contents of the two constant tables (spec/20_memory.md R32 and R34). The
spec takes them from general knowledge of the codec family, not from its source: PRESUMED, log
entry 2. Every definition of the machine reads the tables from its state, so that a statement
holds for any contents. -/

namespace Sys2Proof.Machine

/-- The default step sizes, ten per row as R32 lists them (PRESUMED, log entry 2). -/
def defaultSteps : List Nat :=
  [7, 8, 9, 10, 11, 12, 13, 14, 16, 17] ++
  [19, 21, 23, 25, 28, 31, 34, 37, 41, 45] ++
  [50, 55, 60, 66, 73, 80, 88, 97, 107, 118] ++
  [130, 143, 157, 173, 190, 209, 230, 253, 279, 307] ++
  [337, 371, 408, 449, 494, 544, 598, 658, 724, 796] ++
  [876, 963, 1060, 1166, 1282, 1411, 1552, 1707, 1878, 2066] ++
  [2272, 2499, 2749, 3024, 3327, 3660, 4026, 4428, 4871, 5358] ++
  [5894, 6484, 7132, 7845, 8630, 9493, 10442, 11487, 12635, 13899] ++
  [15289, 16818, 18500, 20350, 22385, 24623, 27086, 29794, 32767]

/-- The default index deltas (R34; PRESUMED, log entry 2). -/
def defaultDeltas : List Int :=
  [-1, -1, -1, -1, 2, 4, 6, 8] ++ [-1, -1, -1, -1, 2, 4, 6, 8]

/-- The default tables (R7, R32, R34; PRESUMED, log entry 2). -/
def defaultRom : Rom where
  stepRom := ⟨(defaultSteps.map (BitVec.ofNat 15)).toArray, rfl⟩
  indexRom := ⟨(defaultDeltas.map (BitVec.ofInt 8)).toArray, rfl⟩

end Sys2Proof.Machine
end

