-- ==== Sys2Proof/Machine/State.lean ====
section
/-! DEFINITION. The state of one instance of the core: the four registers of spec/10_state.md R10,
the two constant tables (spec/20_memory.md R31 to R35), the input and output streams (R30, R36,
spec/42_frame_decode.md R124, R125), and four fields that are the model's own and that no rule
names as a register (log entries 3, 4 and 5). -/

namespace Sys2Proof.Machine

/-- `PHASE`, the frame-position register (R16): how the next input byte is interpreted. -/
inductive Phase where
  /-- The next byte is frame byte 0. -/
  | h0
  /-- The next byte is frame byte 1. -/
  | h1
  /-- The next byte is frame byte 2. -/
  | h2
  /-- The next byte is a payload byte. -/
  | pay
  /-- The next byte belongs to a frame already in error. -/
  | drop
  deriving DecidableEq, Repr

/-- The two causes of MalformedFrame (R151 to R153). -/
inductive Cause where
  /-- BAD_SEED_INDEX: frame byte 2 is above 88 (R151). -/
  | badSeedIndex
  /-- SHORT_FRAME: the frame has fewer than 3 bytes (R152). -/
  | shortFrame
  deriving DecidableEq, Repr

/-- An output event (R125). A sample is a value, not a word (R41). -/
inductive Event where
  /-- `Sample(s)`. -/
  | sample (v : Int)
  /-- `FrameDone`, the status event of a well-formed frame. -/
  | frameDone
  /-- `FrameError(c)`, the one event of a malformed frame. -/
  | frameError (c : Cause)
  deriving DecidableEq, Repr

/-- What the host can present to the core: a beat of the input port (R124), or an assertion of the
reset input (R170). -/
inductive PortItem where
  /-- A beat: one byte and the end-of-frame flag. -/
  | beat (v : Byte) (last : Bool)
  /-- The reset input is asserted; it falls between two beats (R171). -/
  | reset
  deriving DecidableEq, Repr

/-- The state. -/
structure State where
  /-- `PV`, the predictor accumulator, 32-bit two's complement, never saturated (R11, R12). -/
  pv         : BitVec 32
  /-- `INDEX`, the quantizer index, 7 bits (R13). -/
  index      : BitVec 7
  /-- `HDR_HI`, frame byte 0 held until byte 1 arrives (R15). -/
  hdrHi      : BitVec 8
  /-- `PHASE`, the frame position (R16). -/
  phase      : Phase
  /-- `STEP_ROM` and `INDEX_ROM`: constants that no operation writes (R31, R33, R35). -/
  rom        : Rom
  /-- The input stream: what the host has presented and the core has not yet consumed, oldest
  first (R30, R124). -/
  input      : List PortItem
  /-- The output sequence: every event emitted so far, oldest first (R30, R125). -/
  output     : List Event
  /-- The model's own (log entry 3): the payload byte whose second nibble is not yet decoded. It is
  `none` between beats, as R18 says. -/
  pending    : Option Byte
  /-- The model's own (log entry 3): the `last` flag of the beat being processed. -/
  beatLast   : Bool
  /-- The model's own (log entry 4): how many bytes of the current frame were consumed; it serves
  only to refuse a frame longer than `MAX_FRAME_BYTES` (R8), and has no meaning in H0. -/
  frameBytes : Nat
  /-- The model's own (log entry 5): how many reset inputs were taken, the argument of the free
  values. -/
  freeCount  : Nat
  deriving DecidableEq, Repr

/-- Why the machine stops with a fault. -/
inductive Fault where
  /-- A nibble operation would read `STEP_ROM` outside 0 to 88 (R30, R43). Raised by NIB_0 to NIB_F
  when `INDEX` is above 88, which no state reached from reset has in PAY. Safe: the model stops at an
  address the spec says does not exist. -/
  | stepRomRange
  deriving DecidableEq, Repr

/-- Why a step has no meaning. -/
inductive Refusal where
  /-- The instruction has no meaning in the model yet. Raised by no arm. Safe. -/
  | notModelled (mnemonic : String)
  /-- The frame is longer than `MAX_FRAME_BYTES`: the spec "says nothing of what the core does with
  one (`refuse`)" (R8, R176, U2). Raised by the fetch of a beat. Safe. -/
  | frameTooLong
  /-- The sum would leave the 32 bits of `PV`, which "A model must not wrap silently" (U2, R22, N6).
  Raised by NIB_0 to NIB_F, and in no state reached from reset. Safe. -/
  | pvOverflow
  /-- The `STEP_ROM` entry read is 0, a table outside R7's range (U11: `refuse`). Raised by NIB_0 to
  NIB_F. Safe. -/
  | illegalStepRom
  deriving DecidableEq, Repr

/-- The machine right after reset (R25, R171): `PHASE` is H0 and the tables hold their contents. The
spec leaves `PV`, `INDEX` and `HDR_HI` unspecified; they are 0 here (DESIGN CHOICE, unsafe, log
entry 1). No beat was offered and nothing was emitted. -/
def State.reset : State where
  pv := 0#32
  index := 0#7
  hdrHi := 0#8
  phase := .h0
  rom := defaultRom
  input := []
  output := []
  pending := none
  beatLast := false
  frameBytes := 0
  freeCount := 0

end Sys2Proof.Machine
end

