-- ==== Sys2Proof/Machine/Flags.lean ====
section
/-! DEFINITION. The core has no flags, condition codes or predicates (spec/10_state.md R19). What
stands in their place is this file's range arithmetic: the two saturating clamps
(spec/41_nibble_decode.md R82, R86) and the 32-bit range of `PV` (spec/10_state.md R22). -/

namespace Sys2Proof.Machine

/-- `clamp(v, lo, hi)` (spec/00_scope.md section 5). -/
def clamp (v lo hi : Int) : Int := if v < lo then lo else if v > hi then hi else v

/-- `sat16(v)` (spec/00_scope.md section 5, R86). -/
def sat16 (v : Int) : Int := clamp v Config.sampleMin Config.sampleMax

/-- The value fits the 32 bits of `PV` (R11, R22). -/
def fits32 (v : Int) : Bool := decide (-2147483648 ≤ v ∧ v ≤ 2147483647)

/-- Stage 2: the index after adding a table delta, clamped to 0 to 88 (R82). The sum is formed on
integers, so it cannot wrap (R23). -/
def adaptIndex (index : Nat) (delta : Int) : Nat :=
  (clamp (index + delta) 0 Config.indexMax).toNat

end Sys2Proof.Machine
end

