-- ==== Sys2Proof/Machine/Operands.lean ====
section
/-! DEFINITION. The operand forms: the seed assembled from two header bytes
(spec/30_encoding.md R57), the fields of a nibble (R56), and the table entries an operation reads
(spec/20_memory.md R31, R33). -/

namespace Sys2Proof.Machine

/-- `sext_16(v)` (spec/00_scope.md section 5). -/
def sext16 (v : Nat) : Int := if v < 32768 then v else (v : Int) - 65536

/-- `seed_pv = sext_16({PVH, PVL})`, big-endian (R38, R57). -/
def seedPv (hi lo : Byte) : Int := sext16 (hi.toNat * 256 + lo.toNat)

/-- `S = n[3]`, the sign of a nibble (R56, R83). -/
def signBit (n : Nibble) : Bool := n.getLsbD 3

/-- `M = n[2:0]`, the magnitude of a nibble (R56, R83). -/
def magnitude (n : Nibble) : Nat := n.toNat % 8

/-- Stage 4: the reconstructed delta (R84). Each shift truncates before the terms are added. -/
def reconstructDiff (step : Nat) (n : Nibble) : Nat :=
  (step >>> 3) + (if n.getLsbD 2 then step else 0) + (if n.getLsbD 1 then step >>> 1 else 0)
    + (if n.getLsbD 0 then step >>> 2 else 0)

/-- `MAXDIFF(s)`: the largest delta a nibble can produce at a step size (R22). -/
def maxDiff (s : Nat) : Nat := (s >>> 3) + s + (s >>> 1) + (s >>> 2)

/-- Stage 5: the delta added or subtracted as the sign says (R85), on integers. -/
def applySign (pv : Int) (diff : Nat) (n : Nibble) : Int :=
  if signBit n then pv - diff else pv + diff

/-- `STEP_ROM[i]` (R31). -/
def stepAt (rom : Rom) (i : Fin 89) : Nat := (rom.stepRom[i]).toNat

/-- `INDEX_ROM[n]`: the address is the whole nibble, sign bit included (R33). -/
def deltaAt (rom : Rom) (n : Nibble) : Int := (rom.indexRom[n.toNat]'n.isLt).toInt

/-- What a nibble operation computes: `(PV', INDEX', sample)` of R89. -/
structure NibbleResult where
  /-- `PV'`, unclamped. -/
  pv     : Int
  /-- `INDEX'`, in 0 to 88. -/
  index  : Fin 89
  /-- The emitted sample. -/
  sample : Int
  deriving DecidableEq, Repr

/-- The adapted index is a legal address of `STEP_ROM` (R82). -/
theorem adaptIndex_lt (index : Nat) (delta : Int) : adaptIndex index delta < 89 := by
  unfold adaptIndex clamp Config.indexMax
  split
  · simp
  · split <;> omega

/-- `NibbleStep(PV, INDEX, n)` (R89): the step size is that of the index before it is adapted (R90),
and `PV'` is not clamped (R86). -/
def nibbleStep (rom : Rom) (pv : Int) (index : Fin 89) (n : Nibble) : NibbleResult where
  pv := applySign pv (reconstructDiff (stepAt rom index) n) n
  index := ⟨adaptIndex index.val (deltaAt rom n), adaptIndex_lt _ _⟩
  sample := sat16 (applySign pv (reconstructDiff (stepAt rom index) n) n)

end Sys2Proof.Machine
end

