-- ==== Sys2Proof/Machine/Ops.lean ====
section
/-! DEFINITION. The named operations over registers, tables and streams that the meanings share:
register writes, the reading of `STEP_ROM`, the emission of an event, the nibble operation
(spec/41_nibble_decode.md R89), taking the error MalformedFrame (spec/60_exceptions.md R157) and
leaving it (R160), and the reset input (spec/70_reset_and_hazards.md R171). -/

namespace Sys2Proof.Machine

/-- The outcome of a step or of a meaning. -/
abbrev Result := Host.Outcome State Fault Refusal

/-- `PV <- v` (R11). -/
def setPv (v : BitVec 32) (s : State) : State := { s with pv := v }

/-- `INDEX <- v` (R13). -/
def setIndex (v : BitVec 7) (s : State) : State := { s with index := v }

/-- `HDR_HI <- v` (R15). -/
def setHdrHi (v : Byte) (s : State) : State := { s with hdrHi := v }

/-- `PHASE <- p` (R16). -/
def setPhase (p : Phase) (s : State) : State := { s with phase := p }

/-- `emit e`: append an event to the output sequence; the output cannot refuse it (R125). -/
def emit (e : Event) (s : State) : State := { s with output := s.output ++ [e] }

/-- The number the spec gives a cause (R153, decision D11). -/
def causeCode : Cause → Nat
  | .badSeedIndex => 1
  | .shortFrame => 2

/-- Error entry (R157): `raise MalformedFrame(c)` emits `FrameError(c)` and ends the frame, at once if
the beat that raised it is its last, else by discarding what is left of it. Nothing is saved;
`PV`, `INDEX` and `HDR_HI` keep what they held. -/
def raiseMalformed (c : Cause) (s : State) : State :=
  setPhase (if s.beatLast then .h0 else .drop) (emit (.frameError c) s)

/-- A byte of a frame in error is discarded, and the error ends with the frame's last beat (R130,
R160): nothing is written but `PHASE`, and nothing is emitted. -/
def discardByte (s : State) : State := setPhase (if s.beatLast then .h0 else .drop) s

/-- The last beat of a well-formed frame (R128, R129). -/
def endFrame (s : State) : State := setPhase .h0 (emit .frameDone s)

/-- What reading `STEP_ROM` at `INDEX` gives. -/
inductive StepRead where
  /-- The address is in 0 to 88 and the entry is a legal step size. -/
  | entry (i : Fin 89)
  /-- The address is above 88: there is no such entry (R30, R43). -/
  | absent
  /-- The entry is 0, outside the range of R7. -/
  | illegal
  deriving DecidableEq, Repr

/-- `STEP = STEP_ROM[INDEX]` is read at the start of a nibble operation (R14, R31). -/
def readStep (s : State) : StepRead :=
  if h : s.index.toNat < 89 then
    if stepAt s.rom ⟨s.index.toNat, h⟩ = 0 then .illegal else .entry ⟨s.index.toNat, h⟩
  else .absent

/-- The writes of a nibble operation: `PV <- PV'`, `INDEX <- INDEX'`, `emit Sample(sample)` (R89). -/
def writeNibble (r : NibbleResult) (s : State) : State :=
  emit (.sample r.sample) (setIndex (BitVec.ofNat 7 r.index.val) (setPv (BitVec.ofInt 32 r.pv) s))

/-- A nibble operation (R89). `PV'` is refused where it would leave 32 bits, which the spec gives no
meaning (R22, U2; log entry 4). -/
def nibbleOp (n : Nibble) (s : State) : Result :=
  match readStep s with
  | .absent => .fault .stepRomRange
  | .illegal => .refused .illegalStepRom
  | .entry i =>
    if fits32 (nibbleStep s.rom s.pv.toInt i n).pv then
      .next (writeNibble (nibbleStep s.rom s.pv.toInt i n) s)
    else .refused .pvOverflow

/-- The reset input (R171): `PHASE <- H0`; `PV`, `INDEX` and `HDR_HI` become unspecified, here free
values (log entry 5); the tables are untouched and no event is emitted. -/
def takeReset (s : State) : State :=
  { s with
    phase := .h0
    pv := Config.freePv s.freeCount
    index := Config.freeIndex s.freeCount
    hdrHi := Config.freeHdrHi s.freeCount
    freeCount := s.freeCount + 1 }

end Sys2Proof.Machine
end

