-- ==== Sys2Proof/Machine/Header.lean ====
section
/-! DEFINITION. The frame header unpacker: HDR_PV_HI, HDR_PV_LO, HDR_INDEX
(spec/40_header_unpack.md R70 to R72). What `last` does in each is spec/42_frame_decode.md R126 to
R128; the flag is that of the beat being processed, `beatLast`. -/

namespace Sys2Proof.Machine

/-- HDR_PV_HI (R70, R126): hold the byte, or SHORT_FRAME where the frame ends with it. -/
def execHdrPvHi (v : Byte) (s : State) : Result :=
  if s.beatLast then .next (raiseMalformed .shortFrame s)
  else .next (setPhase .h1 (setHdrHi v s))

/-- HDR_PV_LO (R71, R127): `PV` gets the sign-extended seed, or SHORT_FRAME where the frame ends with
this byte; `PV` is then not written (R127 leaves that open; DESIGN CHOICE, log entry 6). -/
def execHdrPvLo (v : Byte) (s : State) : Result :=
  if s.beatLast then .next (raiseMalformed .shortFrame s)
  else .next (setPhase .h2 (setPv (BitVec.ofInt 32 (seedPv s.hdrHi v)) s))

/-- HDR_INDEX (R72, R128): the range check comes first; a legal index is written, and a frame that
ends here is complete and has no samples. -/
def execHdrIndex (v : Byte) (s : State) : Result :=
  if v.toNat > Config.indexMax then .next (raiseMalformed .badSeedIndex s)
  else if s.beatLast then .next (endFrame (setIndex (v.setWidth 7) s))
  else .next (setPhase .pay (setIndex (v.setWidth 7) s))

end Sys2Proof.Machine
end

