-- ==== Sys2Proof/Machine/Nibble.lean ====
section
/-! DEFINITION. The sixteen nibble operations NIB_0 to NIB_F (spec/41_nibble_decode.md R91 to R106):
each is R89 with the nibble's four bits filled in. -/

namespace Sys2Proof.Machine

/-- NIB_0 (R91): `PV += (step>>3)`. -/
def execNib0 (s : State) : Result := nibbleOp 0b0000#4 s

/-- NIB_1 (R92): `PV += (step>>3) + (step>>2)`. -/
def execNib1 (s : State) : Result := nibbleOp 0b0001#4 s

/-- NIB_2 (R93): `PV += (step>>3) + (step>>1)`. -/
def execNib2 (s : State) : Result := nibbleOp 0b0010#4 s

/-- NIB_3 (R94): `PV += (step>>3) + (step>>1) + (step>>2)`. -/
def execNib3 (s : State) : Result := nibbleOp 0b0011#4 s

/-- NIB_4 (R95): `PV += (step>>3) + step`. -/
def execNib4 (s : State) : Result := nibbleOp 0b0100#4 s

/-- NIB_5 (R96): `PV += (step>>3) + step + (step>>2)`. -/
def execNib5 (s : State) : Result := nibbleOp 0b0101#4 s

/-- NIB_6 (R97): `PV += (step>>3) + step + (step>>1)`. -/
def execNib6 (s : State) : Result := nibbleOp 0b0110#4 s

/-- NIB_7 (R98): `PV += (step>>3) + step + (step>>1) + (step>>2)`. -/
def execNib7 (s : State) : Result := nibbleOp 0b0111#4 s

/-- NIB_8 (R99): `PV -= (step>>3)`. -/
def execNib8 (s : State) : Result := nibbleOp 0b1000#4 s

/-- NIB_9 (R100): `PV -= (step>>3) + (step>>2)`. -/
def execNib9 (s : State) : Result := nibbleOp 0b1001#4 s

/-- NIB_A (R101): `PV -= (step>>3) + (step>>1)`. -/
def execNibA (s : State) : Result := nibbleOp 0b1010#4 s

/-- NIB_B (R102): `PV -= (step>>3) + (step>>1) + (step>>2)`. -/
def execNibB (s : State) : Result := nibbleOp 0b1011#4 s

/-- NIB_C (R103): `PV -= (step>>3) + step`. -/
def execNibC (s : State) : Result := nibbleOp 0b1100#4 s

/-- NIB_D (R104): `PV -= (step>>3) + step + (step>>2)`. -/
def execNibD (s : State) : Result := nibbleOp 0b1101#4 s

/-- NIB_E (R105): `PV -= (step>>3) + step + (step>>1)`. -/
def execNibE (s : State) : Result := nibbleOp 0b1110#4 s

/-- NIB_F (R106): `PV -= (step>>3) + step + (step>>1) + (step>>2)`. -/
def execNibF (s : State) : Result := nibbleOp 0b1111#4 s

end Sys2Proof.Machine
end

