-- ==== Sys2Proof/Machine/Dispatch.lean ====
section
/-! DEFINITION. The dispatch: one arm per operation of spec/opcode_table.json, each a direct call of
its meaning. -/

namespace Sys2Proof.Machine

def exec (i : Instr) (s : State) : Host.Outcome State Fault Refusal :=
  match i with
  | .hdrPvHi v => Sys2Proof.Machine.execHdrPvHi v s
  | .hdrPvLo v => Sys2Proof.Machine.execHdrPvLo v s
  | .hdrIndex v => Sys2Proof.Machine.execHdrIndex v s
  | .nib0 => Sys2Proof.Machine.execNib0 s
  | .nib1 => Sys2Proof.Machine.execNib1 s
  | .nib2 => Sys2Proof.Machine.execNib2 s
  | .nib3 => Sys2Proof.Machine.execNib3 s
  | .nib4 => Sys2Proof.Machine.execNib4 s
  | .nib5 => Sys2Proof.Machine.execNib5 s
  | .nib6 => Sys2Proof.Machine.execNib6 s
  | .nib7 => Sys2Proof.Machine.execNib7 s
  | .nib8 => Sys2Proof.Machine.execNib8 s
  | .nib9 => Sys2Proof.Machine.execNib9 s
  | .nibA => Sys2Proof.Machine.execNibA s
  | .nibB => Sys2Proof.Machine.execNibB s
  | .nibC => Sys2Proof.Machine.execNibC s
  | .nibD => Sys2Proof.Machine.execNibD s
  | .nibE => Sys2Proof.Machine.execNibE s
  | .nibF => Sys2Proof.Machine.execNibF s

end Sys2Proof.Machine
end

