-- ==== Sys2Proof/Machine/Fetch.lean ====
section
/-! DEFINITION. The input port: which byte, and which half of a payload byte, the next step decodes
(spec/42_frame_decode.md R124 to R130), and where a reset input or a wait falls
(spec/70_reset_and_hazards.md R171, spec/42_frame_decode.md R132). -/

namespace Sys2Proof.Machine

/-- What the next step works on. -/
inductive Fetch where
  /-- No beat is offered: the core waits (R132). -/
  | wait
  /-- The reset input was asserted; the state has consumed it (R170). -/
  | resetInput (s : State)
  /-- The next beat would make the frame longer than `MAX_FRAME_BYTES` (R8). -/
  | tooLong
  /-- A byte at a frame position; the state has consumed its beat. -/
  | byte (pos : Position) (v : Byte) (s : State)
  deriving DecidableEq, Repr

/-- The position of the first operation of a new beat (R16, R18: a payload beat starts with its high
nibble). -/
def Phase.position : Phase → Position
  | .h0 => .h0
  | .h1 => .h1
  | .h2 => .h2
  | .pay => .payHigh
  | .drop => .drop

/-- The length of the current frame once one more beat is consumed: a beat in H0 is the first of its
frame (R16). -/
def nextFrameBytes (s : State) : Nat :=
  match s.phase with
  | .h0 => 1
  | .h1 => s.frameBytes + 1
  | .h2 => s.frameBytes + 1
  | .pay => s.frameBytes + 1
  | .drop => s.frameBytes + 1

/-- Consume a beat (R124): it leaves the input, its `last` flag is held, and a payload byte stays until
its second nibble is decoded. -/
def acceptBeat (v : Byte) (last : Bool) (rest : List PortItem) (s : State) : State :=
  { s with
    input := rest
    beatLast := last
    frameBytes := nextFrameBytes s
    pending := if s.phase = .pay then some v else none }

/-- What the next step works on: the second nibble of the beat in progress if there is one, so that
neither a beat nor a reset comes between the two nibbles (R129, R171); else the oldest item of the
input. -/
def fetch (s : State) : Fetch :=
  match s.pending with
  | some v => .byte .payLow v { s with pending := none }
  | none =>
    match s.input with
    | [] => .wait
    | .reset :: rest => .resetInput { s with input := rest }
    | .beat v last :: rest =>
      if Config.maxFrameBytes < nextFrameBytes s then .tooLong
      else .byte s.phase.position v (acceptBeat v last rest s)

end Sys2Proof.Machine
end

