-- ==== Sys2Proof/Machine/Beat.lean ====
section
/-! DEFINITION. What one step does with a fetched byte: run the operation it decodes to, and after the
second nibble of a frame's last beat end the frame (spec/42_frame_decode.md R126 to R130). -/

namespace Sys2Proof.Machine

/-- Apply a state change to a next state; a fault or a refusal stays as it is. -/
def mapNext (f : State → State) : Result → Result
  | .next s => .next (f s)
  | .fault r => .fault r
  | .refused r => .refused r

/-- After the operation at a position: the second nibble ends the payload beat, and with `last` it
ends the frame (R129). A header operation has dealt with `last` itself (R126 to R128). -/
def afterOp (pos : Position) (s : State) : State :=
  match pos with
  | .payLow => if s.beatLast then endFrame s else s
  | .h0 => s
  | .h1 => s
  | .h2 => s
  | .payHigh => s
  | .drop => s

/-- Run the byte at its position: its operation, or no operation in DROP (R126 to R130). -/
def runByte (pos : Position) (v : Byte) (s : State) : Result :=
  match decode pos v with
  | .instr i => mapNext (afterOp pos) (exec i s)
  | .discarded => .next (discardByte s)

end Sys2Proof.Machine
end

