-- ==== Sys2Proof/Machine/Step.lean ====
section
/-! DEFINITION. One step of the machine: one operation of the core, or the taking of a reset input, or
a wait (spec/42_frame_decode.md R126 to R132; log entry 3), and the placing of a table word where
the next step fetches it. -/

namespace Sys2Proof.Machine

/-- One step. -/
def step (s : State) : Host.Outcome State Fault Refusal :=
  match fetch s with
  | .wait => .next s
  | .resetInput t => .next (takeReset t)
  | .tooLong => .refused .frameTooLong
  | .byte pos v t => runByte pos v t

/-- The state in which the next step runs a table word (log entries 8 and 9): a nibble's word is the
byte in progress with its second nibble to decode, a header's word is the beat offered in H0. -/
def State.withFetchWord (s : State) (nbits w : Nat) : State :=
  if tablePosition (w % 2 ^ nbits) = .payLow then
    { s with
      phase := .pay
      pending := some (BitVec.ofNat 8 (w % 2 ^ nbits))
      beatLast := false }
  else
    { s with
      phase := .h0
      pending := none
      input := .beat (BitVec.ofNat 8 (w % 2 ^ nbits)) false :: s.input }

end Sys2Proof.Machine
end

