-- ==== Sys2Proof/Machine/Frame.lean ====
section
/-! DEFINITION. The frame-level function `Decode` (spec/42_frame_decode.md R120), the nibble order of a
payload (spec/20_memory.md R39), and the events and beats of one frame (R124, R125, R133). It is
written on integers and lists, apart from the step machine, so that the two can be compared. -/

namespace Sys2Proof.Machine

/-- The nibbles of a payload in decoding order: ascending bytes, high nibble first (R39). -/
def payloadNibbles : List Byte → List Nibble
  | [] => []
  | b :: bs => highNibble b :: lowNibble b :: payloadNibbles bs

/-- The predictor and the index after a run of nibbles, with the samples of the run (R120). -/
def decodeNibbles (rom : Rom) : Int → Fin 89 → List Nibble → List Int
  | _, _, [] => []
  | pv, index, n :: ns =>
    (nibbleStep rom pv index n).sample ::
      decodeNibbles rom (nibbleStep rom pv index n).pv (nibbleStep rom pv index n).index ns

/-- The predictor that a run of nibbles leaves (R120). -/
def finalPv (rom : Rom) : Int → Fin 89 → List Nibble → Int
  | pv, _, [] => pv
  | pv, index, n :: ns => finalPv rom (nibbleStep rom pv index n).pv (nibbleStep rom pv index n).index ns

/-- What `Decode` gives for a frame (R120). -/
inductive FrameResult where
  /-- `Ok(out)`. -/
  | ok (samples : List Int)
  /-- `Error(MalformedFrame, c)`. -/
  | error (c : Cause)
  /-- The frame is longer than `MAX_FRAME_BYTES`: the spec defines no result (R8, R120). -/
  | undefined
  deriving DecidableEq, Repr

/-- `Decode(frame)` (R120): length first (R159), then the range check on the seed index, then the
nibbles. On tables outside R7 (a step size of 0), which U11 says to refuse, this function computes its
samples as on any others and has no refusal of its own (DESIGN CHOICE, log entry 16); the step machine
refuses there (log entry 14). -/
def decodeFrame (rom : Rom) (frame : List Byte) : FrameResult :=
  if Config.maxFrameBytes < frame.length then .undefined
  else
    match frame with
    | [] => .error .shortFrame
    | [_] => .error .shortFrame
    | [_, _] => .error .shortFrame
    | b0 :: b1 :: b2 :: payload =>
      if h : b2.toNat < 89 then
        .ok (decodeNibbles rom (seedPv b0 b1) ⟨b2.toNat, h⟩ (payloadNibbles payload))
      else .error .badSeedIndex

/-- The events of a frame (R125, R133): its samples and `FrameDone`, or one `FrameError`. A frame with
no result has no events here. -/
def frameEvents : FrameResult → List Event
  | .ok samples => samples.map .sample ++ [.frameDone]
  | .error c => [.frameError c]
  | .undefined => []

/-- A frame as beats (R124, R146): only the final byte has `last`. The empty frame has no beats
(R133). -/
def frameBeats : List Byte → List PortItem
  | [] => []
  | [b] => [.beat b true]
  | b :: b' :: bs => .beat b false :: frameBeats (b' :: bs)

/-- The host presents a frame to the input port (R146). -/
def offerFrame (frame : List Byte) (s : State) : State :=
  { s with input := s.input ++ frameBeats frame }

end Sys2Proof.Machine
end

