-- ==== Sys2Proof/Machine/Accumulator.lean ====
section
/-! DEFINITION. The FrameAccumulator that feeds the core (spec/43_frame_accumulator.md R140 to R147). It
is not part of the core and no field of the core's state is its own (spec/00_scope.md R5): it is a
second plain machine, with the delivery of its frames to the core's input port. -/

namespace Sys2Proof.Machine

/-- The accumulation buffer (R140). -/
structure Accumulator where
  /-- The bytes fed and not yet handed over, oldest first. -/
  buffer : List Byte
  deriving DecidableEq, Repr

/-- `feed(chunk)` (R141, R142, R145). In `strict131` mode one call hands over at most one frame and
keeps the rest (DESIGN CHOICE, log entry 7). -/
def Accumulator.feed (mode : AccMode) (chunk : List Byte) (a : Accumulator) :
    Option (List Byte) × Accumulator :=
  if (a.buffer ++ chunk).length < Config.frameBytes then (none, ⟨a.buffer ++ chunk⟩)
  else
    match mode with
    | .drainAll => (some (a.buffer ++ chunk), ⟨[]⟩)
    | .strict131 =>
      (some ((a.buffer ++ chunk).take Config.frameBytes), ⟨(a.buffer ++ chunk).drop Config.frameBytes⟩)

/-- Feed chunks one after another: the frames handed over, in order, and the accumulator left. -/
def Accumulator.feedAll (mode : AccMode) : List (List Byte) → Accumulator → List (List Byte) × Accumulator
  | [], a => ([], a)
  | c :: cs, a =>
    ((a.feed mode c).1.toList ++ (Accumulator.feedAll mode cs (a.feed mode c).2).1,
      (Accumulator.feedAll mode cs (a.feed mode c).2).2)

/-- Feed a chunk and deliver the frame it completes, if any, to the core as beats (R146). -/
def Accumulator.feedCore (mode : AccMode) (chunk : List Byte) (a : Accumulator) (s : State) :
    Accumulator × State :=
  match (a.feed mode chunk).1 with
  | some frame => ((a.feed mode chunk).2, offerFrame frame s)
  | none => ((a.feed mode chunk).2, s)

end Sys2Proof.Machine
end

