-- ==== Sys2Proof/Machine/Assembler.lean ====
section
/-! DEFINITION. The spec's notation for frames (spec/30_encoding.md R64) as functions on operations and
bytes: the `SEED` line, the packing of nibbles in pairs, the synonyms `+m` and `-m`, and the
reading of a frame's bytes as the operations the decoder gives for them. -/

namespace Sys2Proof.Machine

/-- `SEED pv, idx` assembles to three bytes, for `-32768 <= pv <= 32767` and `0 <= idx <= 255`
(R64). -/
def assembleSeed (pv : Int) (idx : Nat) : Option (List Byte) :=
  if -32768 ≤ pv ∧ pv ≤ 32767 ∧ idx ≤ 255 then
    some [BitVec.ofInt 8 (pv % 65536 / 256), BitVec.ofInt 8 (pv % 256), BitVec.ofNat 8 idx]
  else none

/-- Nibble operations packed in pairs, the first of a pair into bits 7:4; a frame holds an even number
of them (R64). -/
def packNibbles : List Instr → Option (List Byte)
  | [] => some []
  | [_] => none
  | i :: j :: rest =>
    match nibbleCode i, nibbleCode j, packNibbles rest with
    | some hi, some lo, some bytes => some (payloadByte hi lo :: bytes)
    | _, _, _ => none

/-- A frame written as a `SEED` line and a list of nibble operations (R64). -/
def assembleFrame (pv : Int) (idx : Nat) (nibbles : List Instr) : Option (List Byte) :=
  match assembleSeed pv idx, packNibbles nibbles with
  | some header, some payload => some (header ++ payload)
  | _, _ => none

/-- `+m` is `NIB_m` (R64). -/
def plusNibble (m : Fin 8) : Instr := ofNibble (BitVec.ofNat 4 m.val)

/-- `-m` is `NIB_(8+m)` (R64). -/
def minusNibble (m : Fin 8) : Instr := ofNibble (BitVec.ofNat 4 (8 + m.val))

/-- The operations of a run of payload bytes (R55). -/
def payloadOps : List Byte → List Instr
  | [] => []
  | b :: bs => (decode .payHigh b).instr?.toList ++ (decode .payLow b).instr?.toList ++ payloadOps bs

/-- The operations the decoder gives for the bytes of a frame, in order (R62). The bytes after a bad
seed index are discarded and give none (R130). -/
def frameOps : List Byte → List Instr
  | [] => []
  | [b0] => (decode .h0 b0).instr?.toList
  | [b0, b1] => (decode .h0 b0).instr?.toList ++ (decode .h1 b1).instr?.toList
  | b0 :: b1 :: b2 :: payload =>
    (decode .h0 b0).instr?.toList ++ (decode .h1 b1).instr?.toList ++ (decode .h2 b2).instr?.toList
      ++ (if b2.toNat ≤ Config.indexMax then payloadOps payload else [])

/-- The bytes of a frame given as its operations: the three header operations and then an even number
of nibble operations (R60, R64). -/
def assembleOps : List Instr → Option (List Byte)
  | .hdrPvHi a :: .hdrPvLo b :: .hdrIndex c :: nibbles =>
    (packNibbles nibbles).map fun payload => a :: b :: c :: payload
  | _ => none

end Sys2Proof.Machine
end

