-- ==== Sys2Proof/Safety.lean ====
section
/-! DEFINITION. The terms claims are made in: the invariant of the states a run reaches
(spec/42_frame_decode.md R134, spec/10_state.md R13, R22), what it is for two states to differ only
in values the spec leaves unspecified (R24, R25), and a run of several steps. -/

namespace Sys2Proof.Machine

/-- How many nibbles of the current frame were decoded, in PAY: two for each payload byte consumed,
less the one still to come (R22, R39). -/
def nibblesDone (s : State) : Nat :=
  2 * (s.frameBytes - Config.headerBytes) - (if s.pending.isSome then 1 else 0)

/-- `PV` is within the bound of R22 after `k` nibble operations. -/
def PvBound (k : Nat) (pv : Int) : Prop := -32768 - 61436 * (k : Int) ≤ pv ∧ pv ≤ 32767 + 61436 * (k : Int)

/-- A sample in an event is within 16 bits (R134). -/
def EventOk : Event → Prop
  | .sample v => -32768 ≤ v ∧ v ≤ 32767
  | .frameDone => True
  | .frameError _ => True

/-- The invariant of the states a run reaches (R134): the tables are legal; a second nibble is waiting
only in PAY; the byte count of the frame agrees with the phase and is within `MAX_FRAME_BYTES`; in
PAY the index is in 0 to 88; `PV` is within R22's bound; every emitted sample is within 16 bits. -/
structure Invariant (s : State) : Prop where
  rom_legal : s.rom.Legal
  pending_pay : s.pending.isSome → s.phase = .pay
  bytes_h1 : s.phase = .h1 → s.frameBytes = 1
  bytes_h2 : s.phase = .h2 → s.frameBytes = 2
  bytes_pay : s.phase = .pay →
    Config.headerBytes + (if s.pending.isSome then 1 else 0) ≤ s.frameBytes ∧ s.frameBytes ≤ Config.maxFrameBytes
  bytes_drop : s.phase = .drop → Config.headerBytes ≤ s.frameBytes ∧ s.frameBytes ≤ Config.maxFrameBytes
  index_pay : s.phase = .pay → s.index.toNat ≤ Config.indexMax
  pv_bound : s.phase = .h2 ∨ s.phase = .pay → PvBound (nibblesDone s) s.pv.toInt
  samples_ok : ∀ e ∈ s.output, EventOk e

/-- The next beat, if one is offered where a beat would be taken, does not make its frame longer than
`MAX_FRAME_BYTES`: the duty of the host (R176). -/
def HostKeepsLength (s : State) : Prop :=
  s.pending = none → ∀ v last rest, s.input = .beat v last :: rest → nextFrameBytes s ≤ Config.maxFrameBytes

/-- Two states differ at most in values no rule reads before they are written again (R24, R25, R157):
`HDR_HI` outside H1, `PV` outside H2 and PAY, `INDEX` outside PAY (neither while a second nibble is
waiting), and the model's own fields where they are not in use. -/
structure Agree (s t : State) : Prop where
  phase : s.phase = t.phase
  rom : s.rom = t.rom
  input : s.input = t.input
  output : s.output = t.output
  pending : s.pending = t.pending
  hdrHi : s.phase = .h1 → s.hdrHi = t.hdrHi
  pv : s.phase = .h2 ∨ s.phase = .pay ∨ s.pending.isSome → s.pv = t.pv
  index : s.phase = .pay ∨ s.pending.isSome → s.index = t.index
  beatLast : s.pending.isSome → s.beatLast = t.beatLast
  frameBytes : s.phase ≠ .h0 → s.frameBytes = t.frameBytes

/-- Two outcomes agree: both stop for the same reason, or both go on to states that agree. -/
def OutcomesAgree : Result → Result → Prop
  | .next s, .next t => Agree s t
  | .fault a, .fault b => a = b
  | .refused a, .refused b => a = b
  | _, _ => False

/-- The state a nibble operation leaves, given `PV'` and the sum of `INDEX` and the table delta before
its clamp: written out from R82, R85, R86 and R89 apart from the meanings. -/
def afterNibble (s : State) (pv' indexSum : Int) : State :=
  { s with
    pv := BitVec.ofInt 32 pv'
    index := BitVec.ofInt 7 (max 0 (min 88 indexSum))
    output := s.output ++ [.sample (max (-32768) (min 32767 pv'))] }

/-- Operation `i` completes as a nibble operation of code `code` that moves `PV` by `move step`, `step`
being the step size of the index before the operation: in every state in which that index is in 0 to
88, the entry read is legal, and the sum fits 32 bits (R89 to R106, R22). -/
def MovesPvBy (i : Instr) (code : Fin 16) (move : Int → Int) : Prop :=
  ∀ (s : State) (idx : Fin 89), s.index.toNat = idx.val → 1 ≤ (s.rom.stepRom[idx]).toNat →
    -2147483648 ≤ s.pv.toInt + move (s.rom.stepRom[idx]).toNat →
    s.pv.toInt + move (s.rom.stepRom[idx]).toNat ≤ 2147483647 →
    exec i s = .next (afterNibble s (s.pv.toInt + move (s.rom.stepRom[idx]).toNat)
      (idx.val + (s.rom.indexRom[code]).toInt))

/-- `k` steps of the machine, stopping at the first fault or refusal. -/
def run : Nat → State → Result
  | 0, s => .next s
  | k + 1, s =>
    match step s with
    | .next t => run k t
    | .fault r => .fault r
    | .refused r => .refused r

end Sys2Proof.Machine
end

