-- ==== Sys2Proof/Certificates/Slice0/Obligations.lean ====
section
/-! DEFINITION. The statements for the provers. Each docstring names the rule of spec/ it states; a
clause that is the model's own choice says so and names the log entry. -/

open Sys2Proof Sys2Proof.Machine

/-! ### Reset, waiting and the host's duties -/

/-- R25, R171 to R174: right after reset `PHASE` is H0, no beat is in progress, nothing was emitted,
and the tables hold legal contents, the default ones of R32 and R34 (PRESUMED, log entry 2). -/
def Obligations.ResetAwaitsFrameByteZero : Prop :=
  State.reset.phase = .h0 ∧ State.reset.pending = none ∧ State.reset.output = [] ∧
    State.reset.rom = defaultRom ∧ State.reset.rom.Legal

/-- R171, R172: the reset input sets `PHASE` to H0 and leaves `PV`, `INDEX` and `HDR_HI` at values the
statement does not fix (log entry 5); it emits nothing, retracts nothing and does not touch the
tables; and it is not taken between the two nibble operations of one payload beat. -/
def Obligations.ResetInputAbandonsFrame : Prop :=
  (∀ (s : State) (rest : List PortItem), s.pending = none → s.input = .reset :: rest →
    ∃ pv index hdrHi count, step s = .next { s with
      input := rest, phase := .h0, pv := pv, index := index, hdrHi := hdrHi, freeCount := count }) ∧
  (∀ (s t : State) (v : Byte), s.pending = some v → step s = .next t →
    t.input = s.input ∧ t.freeCount = s.freeCount)

/-- When no beat is offered the core does nothing. R132 says that it then has no step, changes no state
and emits nothing; that the model has a step there, which answers the same state, is the model's
rendering of it (DEDUCED, log entry 10). -/
def Obligations.NoBeatNoChange : Prop :=
  ∀ s : State, s.pending = none → s.input = [] → step s = .next s

/-- R8, R176, U2: a beat that would make the frame longer than `MAX_FRAME_BYTES` is refused, since the
spec gives it no meaning. -/
def Obligations.OverlongFrameRefused : Prop :=
  ∀ (s : State) (v : Byte) (last : Bool) (rest : List PortItem), s.pending = none →
    s.input = .beat v last :: rest → s.phase ≠ .h0 → 17480 ≤ s.frameBytes →
    step s = .refused .frameTooLong

/-! ### The header operations -/

/-- R70, R126: HDR_PV_HI holds its byte and goes to H1; with `last` the frame has one byte, and the
operation raises SHORT_FRAME instead. -/
def Obligations.HdrPvHiHoldsByte : Prop :=
  ∀ (v : Byte) (s : State),
    (s.beatLast = false → exec (.hdrPvHi v) s = .next { s with hdrHi := v, phase := .h1 }) ∧
    (s.beatLast = true → exec (.hdrPvHi v) s =
      .next { s with output := s.output ++ [.frameError .shortFrame], phase := .h0 })

/-- R71: HDR_PV_LO writes the sign-extended big-endian seed and goes to H2; with `last` the frame has two
bytes, and the operation raises SHORT_FRAME instead. That it then does not write `PV` is the model's
choice, since R127 leaves that open (DESIGN CHOICE, log entry 6). -/
def Obligations.HdrPvLoWritesSeed : Prop :=
  ∀ (v : Byte) (s : State),
    (s.beatLast = false → ∃ pv : BitVec 32, exec (.hdrPvLo v) s = .next { s with pv := pv, phase := .h2 } ∧
      pv.toInt = (s.hdrHi.toNat * 256 + v.toNat : Int) - (if 128 ≤ s.hdrHi.toNat then 65536 else 0) ∧
      -32768 ≤ pv.toInt ∧ pv.toInt ≤ 32767) ∧
    (s.beatLast = true → exec (.hdrPvLo v) s =
      .next { s with output := s.output ++ [.frameError .shortFrame], phase := .h0 })

/-- R72, R128: HDR_INDEX writes a seed index of 0 to 88 and goes to PAY, or with `last` ends a frame
without samples; a larger value raises BAD_SEED_INDEX, `last` or not, and writes no index. After a legal one
the step size read next is `STEP_ROM` at the seed index. -/
def Obligations.HdrIndexChecksSeed : Prop :=
  ∀ (v : Byte) (s : State),
    (v.toNat ≤ 88 → s.beatLast = false →
      exec (.hdrIndex v) s = .next { s with index := BitVec.ofNat 7 v.toNat, phase := .pay }) ∧
    (v.toNat ≤ 88 → s.beatLast = true →
      exec (.hdrIndex v) s = .next { s with
        index := BitVec.ofNat 7 v.toNat, output := s.output ++ [.frameDone], phase := .h0 }) ∧
    (88 < v.toNat →
      exec (.hdrIndex v) s = .next { s with
        output := s.output ++ [.frameError .badSeedIndex],
        phase := if s.beatLast then .h0 else .drop }) ∧
    (∀ idx : Fin 89, idx.val = v.toNat → 1 ≤ (s.rom.stepRom[idx]).toNat →
      readStep { s with index := BitVec.ofNat 7 v.toNat, phase := .pay } = .entry idx)

/-- R73: three header beats with a legal seed index, from any state in H0, leave the seed in `PV` and
`INDEX`, `PHASE` in PAY and nothing emitted, and the first nibble will read `STEP_ROM` at the seed
index. -/
def Obligations.HeaderSeedsState : Prop :=
  ∀ (s : State) (b0 b1 b2 : Byte) (rest : List PortItem) (h : b2.toNat < 89),
    s.phase = .h0 → s.pending = none → s.rom.Legal →
    s.input = .beat b0 false :: .beat b1 false :: .beat b2 false :: rest →
    ∃ t, run 3 s = .next t ∧
      t.pv.toInt = (b0.toNat * 256 + b1.toNat : Int) - (if 128 ≤ b0.toNat then 65536 else 0) ∧
      t.index.toNat = b2.toNat ∧ t.phase = .pay ∧ t.pending = none ∧ t.input = rest ∧
      t.output = s.output ∧ t.rom = s.rom ∧ readStep t = .entry ⟨b2.toNat, h⟩

/-! ### The nibble operations -/

/-- R89, R90: a nibble operation, for every nibble and every state in which it has a meaning: `diff`
from the step size of the index before its adaptation, each term truncated on its own; the index
clamped to 0 to 88; `PV` unclamped; the sample clamped to 16 bits; nothing else changes. -/
def Obligations.NibbleOperationResult : Prop :=
  ∀ (s : State) (n : Nibble) (idx : Fin 89) (step diff pv' : Int),
    s.index.toNat = idx.val → 1 ≤ (s.rom.stepRom[idx]).toNat →
    step = (s.rom.stepRom[idx]).toNat →
    diff = step / 8 + (if n.toNat / 4 % 2 = 1 then step else 0)
      + (if n.toNat / 2 % 2 = 1 then step / 2 else 0) + (if n.toNat % 2 = 1 then step / 4 else 0) →
    pv' = (if n.toNat < 8 then s.pv.toInt + diff else s.pv.toInt - diff) →
    -2147483648 ≤ pv' → pv' ≤ 2147483647 →
    exec (ofNibble n) s =
      .next (afterNibble s pv' (idx.val + (s.rom.indexRom[(⟨n.toNat, n.isLt⟩ : Fin 16)]).toInt))

/-- R91 to R98: NIB_0 to NIB_7 add their delta to `PV`; the index delta is that of the whole nibble. -/
def Obligations.PositiveNibbleCodes : Prop :=
  MovesPvBy .nib0 0 (fun s => s / 8) ∧
  MovesPvBy .nib1 1 (fun s => s / 8 + s / 4) ∧
  MovesPvBy .nib2 2 (fun s => s / 8 + s / 2) ∧
  MovesPvBy .nib3 3 (fun s => s / 8 + s / 2 + s / 4) ∧
  MovesPvBy .nib4 4 (fun s => s / 8 + s) ∧
  MovesPvBy .nib5 5 (fun s => s / 8 + s + s / 4) ∧
  MovesPvBy .nib6 6 (fun s => s / 8 + s + s / 2) ∧
  MovesPvBy .nib7 7 (fun s => s / 8 + s + s / 2 + s / 4)

/-- R99 to R106: NIB_8 to NIB_F subtract their delta from `PV`; the index delta is that of the whole
nibble. -/
def Obligations.NegativeNibbleCodes : Prop :=
  MovesPvBy .nib8 8 (fun s => -(s / 8)) ∧
  MovesPvBy .nib9 9 (fun s => -(s / 8 + s / 4)) ∧
  MovesPvBy .nibA 10 (fun s => -(s / 8 + s / 2)) ∧
  MovesPvBy .nibB 11 (fun s => -(s / 8 + s / 2 + s / 4)) ∧
  MovesPvBy .nibC 12 (fun s => -(s / 8 + s)) ∧
  MovesPvBy .nibD 13 (fun s => -(s / 8 + s + s / 4)) ∧
  MovesPvBy .nibE 14 (fun s => -(s / 8 + s + s / 2)) ∧
  MovesPvBy .nibF 15 (fun s => -(s / 8 + s + s / 2 + s / 4))

/-- R43, R22, U2, U11: where a nibble operation stops: an index above 88 has no `STEP_ROM` entry; an
entry of 0 is no legal table; a sum outside 32 bits has no meaning. -/
def Obligations.NibbleOperationStops : Prop :=
  ∀ (s : State) (n : Nibble),
    (88 < s.index.toNat → exec (ofNibble n) s = .fault .stepRomRange) ∧
    (∀ idx : Fin 89, s.index.toNat = idx.val → (s.rom.stepRom[idx]).toNat = 0 →
      exec (ofNibble n) s = .refused .illegalStepRom) ∧
    (∀ idx : Fin 89, s.index.toNat = idx.val → 1 ≤ (s.rom.stepRom[idx]).toNat →
      (applySign s.pv.toInt (reconstructDiff (s.rom.stepRom[idx]).toNat n) n < -2147483648 ∨
        2147483647 < applySign s.pv.toInt (reconstructDiff (s.rom.stepRom[idx]).toNat n) n) →
      exec (ofNibble n) s = .refused .pvOverflow)

/-- R84: the formula of `diff`, when it is 0, that it is at least the step size for magnitudes 4 and
above, and that magnitude 7 gives the largest, at most 61436 for a legal step size (R22). -/
def Obligations.DiffLaws : Prop :=
  ∀ (step : Nat) (n : Nibble), 1 ≤ step →
    reconstructDiff step n = step / 8 + (if magnitude n / 4 % 2 = 1 then step else 0)
      + (if magnitude n / 2 % 2 = 1 then step / 2 else 0) + (if magnitude n % 2 = 1 then step / 4 else 0) ∧
    (reconstructDiff step n = 0 ↔
      (magnitude n = 0 ∧ step < 8) ∨ (magnitude n = 1 ∧ step < 4) ∨
        ((magnitude n = 2 ∨ magnitude n = 3) ∧ step < 2)) ∧
    (4 ≤ magnitude n → step ≤ reconstructDiff step n) ∧
    reconstructDiff step n ≤ maxDiff step ∧
    (magnitude n = 7 → reconstructDiff step n = maxDiff step) ∧
    (step ≤ 32767 → maxDiff step ≤ 61436)

/-- R86: the sample a nibble operation emits is the new `PV` clamped to 16 bits, and the clamped value
is not written back: `PV` moved by exactly `diff`. -/
def Obligations.SampleClampedPvKept : Prop :=
  ∀ (s t : State) (n : Nibble) (idx : Fin 89), s.index.toNat = idx.val →
    exec (ofNibble n) s = .next t →
    t.output = s.output ++ [.sample (max (-32768) (min 32767 t.pv.toInt))] ∧
    t.pv.toInt = (if n.toNat < 8 then s.pv.toInt + reconstructDiff (s.rom.stepRom[idx]).toNat n
      else s.pv.toInt - reconstructDiff (s.rom.stepRom[idx]).toNat n)

/-- R82: whatever the tables and the nibble, a nibble operation that completes leaves the index in 0 to
88: the clamp saturates, it does not wrap. -/
def Obligations.IndexClampSaturates : Prop :=
  ∀ (s t : State) (n : Nibble), exec (ofNibble n) s = .next t →
    t.index.toNat ≤ 88 ∧
    (t.index.toNat : Int) = max 0 (min 88 (s.index.toNat + (s.rom.indexRom[(⟨n.toNat, n.isLt⟩ : Fin 16)]).toInt))

/-- R23: the index sum before its clamp is in -128 to 215 for every table, and in -1 to 96 with the
default table (PRESUMED contents, log entry 2). -/
def Obligations.IndexSumFitsNineBits : Prop :=
  (∀ (rom : Rom) (idx : Fin 89) (n : Nibble),
    -128 ≤ (idx.val : Int) + deltaAt rom n ∧ (idx.val : Int) + deltaAt rom n ≤ 215) ∧
  (∀ (idx : Fin 89) (n : Nibble),
    -1 ≤ (idx.val : Int) + deltaAt defaultRom n ∧ (idx.val : Int) + deltaAt defaultRom n ≤ 96)

/-- R22: a nibble's `diff` is between `step >> 3` and `MAXDIFF(step)`, which is at most 61436; after any
run of `k` nibbles from a 16-bit seed `PV` is within the bound; 25 signed bits suffice for a nominal
frame, and 32 bits for every `k` up to 34954, which a frame of `MAX_FRAME_BYTES` does not exceed. -/
def Obligations.PredictorBound : Prop :=
  (∀ (rom : Rom) (idx : Fin 89) (n : Nibble),
    stepAt rom idx / 8 ≤ reconstructDiff (stepAt rom idx) n ∧
    reconstructDiff (stepAt rom idx) n ≤ maxDiff (stepAt rom idx) ∧ maxDiff (stepAt rom idx) ≤ 61436) ∧
  ∀ (rom : Rom) (pv : Int) (idx : Fin 89) (ns : List Nibble), -32768 ≤ pv → pv ≤ 32767 →
    -32768 - 61436 * (ns.length : Int) ≤ finalPv rom pv idx ns ∧
    finalPv rom pv idx ns ≤ 32767 + 61436 * (ns.length : Int) ∧
    (ns.length ≤ 256 → -15760384 ≤ finalPv rom pv idx ns ∧ finalPv rom pv idx ns ≤ 15760384) ∧
    (ns.length ≤ 2 * (17480 - 3) → -2147483648 ≤ finalPv rom pv idx ns ∧ finalPv rom pv idx ns ≤ 2147483647)

/-- 95_test_vectors.md section 1.1: with seed index 0 and any tables whose delta for nibble 0 is not
positive, an all-zero payload gives sample `j` as the clamped seed plus `(j+1)` times
`STEP_ROM[0] >> 3`: a zero nibble is not "no change" (R91). For tables outside R7 (a step size of 0)
U11 gives no result; that the formula holds of them too rests on the model's choice (DESIGN CHOICE,
log entry 16). -/
def Obligations.ZeroPayloadRamp : Prop :=
  ∀ (rom : Rom) (pv : Int) (k : Nat), deltaAt rom 0#4 ≤ 0 →
    decodeNibbles rom pv 0 (List.replicate k 0#4) =
      (List.range k).map fun j : Nat => sat16 (pv + ((j : Int) + 1) * ((stepAt rom 0 / 8 : Nat) : Int))

/-! ### What an operation leaves alone -/

/-- The frame of every operation (R10 "written by", R35, R89, R157): the tables, the input, the beat in
progress and the counters are unchanged; the output only grows, by at most one event; `HDR_HI` is
written by HDR_PV_HI only, `PV` by HDR_PV_LO and the nibble operations only, `INDEX` by HDR_INDEX
and the nibble operations only; a nibble operation does not change `PHASE`. -/
def Obligations.OperationFrame : Prop :=
  ∀ (i : Instr) (s t : State), exec i s = .next t →
    t.rom = s.rom ∧ t.input = s.input ∧ t.pending = s.pending ∧ t.beatLast = s.beatLast ∧
    t.frameBytes = s.frameBytes ∧ t.freeCount = s.freeCount ∧
    (∃ events, t.output = s.output ++ events ∧ events.length ≤ 1) ∧
    ((∀ v, i ≠ .hdrPvHi v) → t.hdrHi = s.hdrHi) ∧
    ((∀ v, i ≠ .hdrPvLo v) → nibbleCode i = none → t.pv = s.pv) ∧
    ((∀ v, i ≠ .hdrIndex v) → nibbleCode i = none → t.index = s.index) ∧
    (nibbleCode i ≠ none → t.phase = s.phase)

/-- R35, R44, R45: a step never changes the tables, consumes the input in order and at most one item of
it, and only appends to the output. -/
def Obligations.StreamsInOrder : Prop :=
  ∀ s t : State, step s = .next t →
    t.rom = s.rom ∧ (t.input = s.input ∨ ∃ item, s.input = item :: t.input) ∧
    ∃ events, t.output = s.output ++ events

/-! ### Steps and beats -/

/-- A step runs the decoded operation. Where a second nibble is waiting, the step is exec of the
operation its byte's low half decodes to, followed by the end of the frame if the beat is its last
(R129); where a beat is offered and does not make the frame too long, it is exec of the operation
the byte decodes to at its position, the beat having been accepted (R126 to R129). That a step is one
operation, so that the step that takes a PAY beat runs its high nibble only and the next step runs
its low one, is the model's choice (DESIGN CHOICE, log entry 3): R129 makes one step of the whole
beat. The byte count is the model's own too (log entry 4). -/
def Obligations.StepRunsDecodedOperation : Prop :=
  (∀ (s : State) (v : Byte) (i : Instr), s.pending = some v → decode .payLow v = .instr i →
    step s = mapNext (fun t => if t.beatLast then endFrame t else t) (exec i { s with pending := none })) ∧
  (∀ (s : State) (v : Byte) (last : Bool) (rest : List PortItem) (i : Instr), s.pending = none →
    s.input = .beat v last :: rest → nextFrameBytes s ≤ 17480 →
    decode s.phase.position v = .instr i → step s = exec i (acceptBeat v last rest s))

/-- R129: a payload beat is two nibble operations, high nibble first, the second reading what the first
wrote; both samples are emitted before the next beat, and a `last` beat ends the frame. -/
def Obligations.PayloadBeatDecodesTwoNibbles : Prop :=
  ∀ (s : State) (v : Byte) (last : Bool) (rest : List PortItem) (idx : Fin 89) (r1 r2 : NibbleResult),
    s.phase = .pay → s.pending = none → s.input = .beat v last :: rest → s.frameBytes < 17480 →
    s.rom.Legal → s.index.toNat = idx.val →
    r1 = nibbleStep s.rom s.pv.toInt idx (highNibble v) →
    r2 = nibbleStep s.rom r1.pv r1.index (lowNibble v) →
    fits32 r1.pv = true → fits32 r2.pv = true →
    run 2 s = .next { s with
      pv := BitVec.ofInt 32 r2.pv
      index := BitVec.ofNat 7 r2.index.val
      output := s.output ++ [.sample r1.sample, .sample r2.sample] ++ (if last then [.frameDone] else [])
      phase := if last then .h0 else .pay
      input := rest
      beatLast := last
      frameBytes := s.frameBytes + 1 }

/-- R130: in DROP a byte is discarded: nothing is written and nothing is emitted, and `last` returns to
H0. DROP is entered only from H2, on a bad seed index, whose error was emitted there. -/
def Obligations.DropDiscards : Prop :=
  (∀ (s : State) (v : Byte) (last : Bool) (rest : List PortItem), s.phase = .drop → s.pending = none →
    s.input = .beat v last :: rest → s.frameBytes < 17480 →
    step s = .next { s with
      input := rest, beatLast := last, frameBytes := s.frameBytes + 1, phase := if last then .h0 else .drop }) ∧
  (∀ s t : State, step s = .next t → t.phase = .drop → s.phase = .drop ∨
    (s.phase = .h2 ∧ ∃ (v : Byte) (rest : List PortItem), s.input = .beat v false :: rest ∧ 88 < v.toNat ∧
      t.output = s.output ++ [.frameError .badSeedIndex]))

/-- From R157, taking the error: whenever a step emits a `FrameError`, `PV`, `INDEX` and `HDR_HI` keep
what they held, and `PHASE` is H0 if the beat that raised it was its frame's last and DROP otherwise,
which only BAD_SEED_INDEX can bring. That the registers are not read again before the next frame
rewrites them, the rest of R157, is in `UnspecifiedValuesUnobservable`. That `PV` is not written by
the second byte of a 2-byte frame is the model's choice, which R127 leaves open (DESIGN CHOICE, log
entry 6). -/
def Obligations.ErrorEntry : Prop :=
  ∀ (s t : State) (c : Cause), step s = .next t → t.output = s.output ++ [.frameError c] →
    t.pv = s.pv ∧ t.index = s.index ∧ t.hdrHi = s.hdrHi ∧ t.rom = s.rom ∧
    t.phase = (if t.beatLast then .h0 else .drop) ∧ (t.phase = .drop → c = .badSeedIndex)

/-- R131: a beat with `last` leaves `PHASE` in H0 and no second nibble waiting: in one step outside PAY,
in two in PAY, where the model cuts the beat in two (DESIGN CHOICE, log entry 3). -/
def Obligations.LastBeatReturnsToH0 : Prop :=
  ∀ (s t : State) (v : Byte) (rest : List PortItem), s.pending = none → s.input = .beat v true :: rest →
    ((s.phase ≠ .pay → step s = .next t → t.phase = .h0 ∧ t.pending = none ∧ t.input = rest) ∧
      (s.phase = .pay → run 2 s = .next t → t.phase = .h0 ∧ t.pending = none ∧ t.input = rest))

/-! ### Invariants and unobservable values -/

/-- The invariant holds right after reset (R134; the register values are those of log entry 1, and it
holds whatever they are). -/
def Obligations.ResetMeetsInvariant : Prop :=
  ∀ (pv : BitVec 32) (index : BitVec 7) (hdrHi : BitVec 8),
    Invariant { State.reset with pv := pv, index := index, hdrHi := hdrHi } ∧ Invariant State.reset

/-- R134, R13, R22: every step keeps the invariant: the index in 0 to 88 in PAY, `PV` within its bound,
every emitted sample within 16 bits, the tables legal. -/
def Obligations.StepKeepsInvariant : Prop :=
  ∀ s t : State, Invariant s → step s = .next t → Invariant t

/-- R134, R43, R155, R176: from every state that meets the invariant, and with a host that keeps frames
within `MAX_FRAME_BYTES`, a step answers a next state: no table is read outside its range, `PV` does
not overflow, and ordinary data stops nothing. -/
def Obligations.InvariantNeverStops : Prop :=
  ∀ s : State, Invariant s → HostKeepsLength s → ∃ t, step s = .next t ∧ Invariant t

/-- R24, R25, R127, R157: the values the spec leaves unspecified are unobservable: two states that
differ only in them stop alike or step to states that differ only in them, with the same output. -/
def Obligations.UnspecifiedValuesUnobservable : Prop :=
  ∀ s t : State, Agree s t → OutcomesAgree (step s) (step t)

/-! ### Whole frames -/

/-- R133: a frame of 1 to `MAX_FRAME_BYTES` bytes delivered as beats from H0 makes the machine emit
exactly the events of `Decode(frame)`, and leaves it in H0, whatever the registers held. -/
def Obligations.MachineAgreesWithDecode : Prop :=
  ∀ (s : State) (frame : List Byte) (rest : List PortItem), s.phase = .h0 → s.pending = none →
    s.rom.Legal → 1 ≤ frame.length → frame.length ≤ 17480 → s.input = frameBeats frame ++ rest →
    ∃ k t, run k s = .next t ∧ t.output = s.output ++ frameEvents (decodeFrame s.rom frame) ∧
      t.phase = .h0 ∧ t.pending = none ∧ t.input = rest ∧ t.rom = s.rom

/-- R122, R123, R131: frames delivered one after another, malformed ones among them, give each frame's
own events in order: no frame affects another. -/
def Obligations.FramesAreIndependent : Prop :=
  ∀ (s : State) (frames : List (List Byte)) (rest : List PortItem), s.phase = .h0 → s.pending = none →
    s.rom.Legal → (∀ f ∈ frames, 1 ≤ f.length ∧ f.length ≤ 17480) →
    s.input = frames.flatMap frameBeats ++ rest →
    ∃ k t, run k s = .next t ∧
      t.output = s.output ++ frames.flatMap (fun f => frameEvents (decodeFrame s.rom f)) ∧
      t.phase = .h0 ∧ t.pending = none ∧ t.input = rest

/-- R121: `Ok(out)` has exactly `2 * (L - 3)` samples, and 256 for a nominal frame. -/
def Obligations.SampleCount : Prop :=
  ∀ (rom : Rom) (frame : List Byte) (out : List Int), decodeFrame rom frame = .ok out →
    out.length = 2 * (frame.length - 3) ∧ (frame.length = 131 → out.length = 256)

/-- R134, first item: every sample of every frame is in -32768 to 32767, for every table. -/
def Obligations.SamplesSaturate : Prop :=
  ∀ (rom : Rom) (frame : List Byte) (out : List Int) (x : Int), decodeFrame rom frame = .ok out →
    x ∈ out → -32768 ≤ x ∧ x ≤ 32767

/-- R120, R151, R152, R159: within `MAX_FRAME_BYTES` a frame is SHORT_FRAME exactly when it has fewer
than 3 bytes, BAD_SEED_INDEX exactly when byte 2 exists and is above 88, and otherwise decodes. For
tables outside R7 (a step size of 0) U11 gives `Decode` no result; that the three clauses hold of them
too rests on the model's choice (DESIGN CHOICE, log entry 16). -/
def Obligations.FrameErrorsExactly : Prop :=
  ∀ (rom : Rom) (frame : List Byte), frame.length ≤ 17480 →
    (decodeFrame rom frame = .error .shortFrame ↔ frame.length < 3) ∧
    (decodeFrame rom frame = .error .badSeedIndex ↔ ∃ v, frame[2]? = some v ∧ 88 < v.toNat) ∧
    ((∃ out, decodeFrame rom frame = .ok out) ↔ ∃ v, frame[2]? = some v ∧ v.toNat ≤ 88)

/-- R39: nibble number `j` of a payload is in byte `j div 2`, its high half if `j` is even and its low
half if `j` is odd; sample number `j` is the clamped predictor after nibbles 0 to `j`; and in a whole
frame that decodes, nibble `j` and sample `j` come from frame offset `3 + j div 2`, and there is a
sample `j` exactly where the frame has that byte. -/
def Obligations.NibbleOrder : Prop :=
  (∀ (payload : List Byte) (j : Nat),
    (payloadNibbles payload)[j]? =
      (payload[j / 2]?).map fun v =>
        if j % 2 = 0 then BitVec.ofNat 4 (v.toNat / 16) else BitVec.ofNat 4 (v.toNat % 16)) ∧
  (∀ (rom : Rom) (pv : Int) (idx : Fin 89) (ns : List Nibble) (j : Nat),
    (decodeNibbles rom pv idx ns)[j]? =
      (ns[j]?).map fun _ => sat16 (finalPv rom pv idx (ns.take (j + 1)))) ∧
  (∀ (rom : Rom) (frame : List Byte) (out : List Int), decodeFrame rom frame = .ok out →
    ∃ (b0 b1 b2 : Byte) (payload : List Byte) (h : b2.toNat < 89),
      frame = b0 :: b1 :: b2 :: payload ∧
      ∀ j : Nat,
        (payloadNibbles payload)[j]? =
          (frame[3 + j / 2]?).map (fun v =>
            if j % 2 = 0 then BitVec.ofNat 4 (v.toNat / 16) else BitVec.ofNat 4 (v.toNat % 16)) ∧
        out[j]? =
          (frame[3 + j / 2]?).map (fun _ =>
            sat16 (finalPv rom (seedPv b0 b1) ⟨b2.toNat, h⟩ ((payloadNibbles payload).take (j + 1)))))

/-- R153: the two cause codes; no other code is used, and they are different. -/
def Obligations.CauseCodes : Prop :=
  causeCode .badSeedIndex = 1 ∧ causeCode .shortFrame = 2 ∧
    (∀ c, causeCode c = 1 ∨ causeCode c = 2) ∧ ∀ c d, causeCode c = causeCode d → c = d

/-! ### Encoding -/

/-- From R62: the position alone selects the format; the byte's bits fill its fields. Which positions a
frame's bytes take in turn, the rest of R62, is in `HeaderSeedsState` and `MachineAgreesWithDecode`. -/
def Obligations.PositionSelectsFormat : Prop :=
  ∀ v : Byte,
    decode .h0 v = .instr (.hdrPvHi v) ∧ decode .h1 v = .instr (.hdrPvLo v) ∧
    decode .h2 v = .instr (.hdrIndex v) ∧ decode .drop v = .discarded ∧
    decode .payHigh v = .instr (ofNibble (v.extractLsb' 4 4)) ∧
    decode .payLow v = .instr (ofNibble (v.extractLsb' 0 4))

/-- R60, R59: words written out from the operation map decode to their operations; `0x7F` is NIB_7 and
then NIB_F. -/
def Obligations.WordsDecode : Prop :=
  decode .payLow 0b00000101#8 = .instr .nib5 ∧ decode .payLow 0b00001010#8 = .instr .nibA ∧
  decode .payHigh 0b11010000#8 = .instr .nibD ∧ decode .payHigh 0x7F#8 = .instr .nib7 ∧
  decode .payLow 0x7F#8 = .instr .nibF ∧ decode .h2 0x58#8 = .instr (.hdrIndex 88#8)

/-- R61: the one illegal encoding class is format H2 with a value above 88, which raises BAD_SEED_INDEX;
every nibble is legal; and a header operation has a next state for every byte. -/
def Obligations.OneIllegalEncodingClass : Prop :=
  (∀ (pos : Position) (v : Byte) (i : Instr), decode pos v = .instr i →
    (i.wellFormed = false ↔ pos = .h2 ∧ 88 < v.toNat)) ∧
  (∀ (pos : Position) (v : Byte) (i : Instr) (s : State), decode pos v = .instr i →
    nibbleCode i = none → ∃ t, exec i s = .next t) ∧
  (∀ (pos : Position) (v : Byte) (i : Instr), decode pos v = .instr i → nibbleCode i ≠ none →
    i.wellFormed = true) ∧
  (∀ (v : Byte) (s : State), (Instr.hdrIndex v).wellFormed = false →
    ∃ t, exec (.hdrIndex v) s = .next t ∧ t.output = s.output ++ [.frameError .badSeedIndex] ∧
      t.index = s.index)

/-- R60 and the encoding column of the operation map: at its own position every operation's word decodes
to it, and a nibble's code decodes to it in the high half of any payload byte too. -/
def Obligations.EncodeThenDecode : Prop :=
  ∀ i : Instr, decode (homePosition i) (encode i) = .instr i ∧
    ∀ (n lo : Nibble), nibbleCode i = some n → decode .payHigh (payloadByte n lo) = .instr i ∧
      decode .payLow (payloadByte lo n) = .instr i

/-- R62, R64: a frame's bytes and its operations say the same: assembling the operations a well-formed
frame decodes to gives its bytes back, and decoding assembled well-formed operations gives them
back. -/
def Obligations.FramesAssembleAndDecode : Prop :=
  (∀ b0 b1 b2 : Byte, ∀ payload : List Byte, b2.toNat ≤ 88 →
    assembleOps (frameOps (b0 :: b1 :: b2 :: payload)) = some (b0 :: b1 :: b2 :: payload)) ∧
  (∀ (ops : List Instr) (frame : List Byte), (∀ i ∈ ops, i.wellFormed = true) →
    assembleOps ops = some frame → frameOps frame = ops)

/-- R57, R64: the bytes of `SEED pv, idx` give back `pv` and `idx`, for every seed the notation
admits, and it admits no other. -/
def Obligations.SeedAssembles : Prop :=
  ∀ (pv : Int) (idx : Nat),
    (-32768 ≤ pv → pv ≤ 32767 → idx ≤ 255 → ∃ b0 b1 b2 : Byte,
      assembleSeed pv idx = some [b0, b1, b2] ∧ seedPv b0 b1 = pv ∧ b2.toNat = idx) ∧
    ((pv < -32768 ∨ 32767 < pv ∨ 255 < idx) → assembleSeed pv idx = none)

/-! ### The frame accumulator -/

/-- R141, R142: in the reference mode a call whose buffer reaches 131 bytes hands over the whole buffer
and leaves it empty; any other call hands over nothing and keeps every byte. -/
def Obligations.AccumulatorDrainsAll : Prop :=
  ∀ (a : Accumulator) (chunk : List Byte),
    (131 ≤ (a.buffer ++ chunk).length → a.feed .drainAll chunk = (some (a.buffer ++ chunk), ⟨[]⟩)) ∧
    ((a.buffer ++ chunk).length < 131 → a.feed .drainAll chunk = (none, ⟨a.buffer ++ chunk⟩))

/-- R147: from an empty buffer, and in either mode, no call hands over a frame until the bytes fed reach
131; the call that makes them exactly 131 hands them over and leaves the buffer empty. -/
def Obligations.AccumulatorWaitsFor131 : Prop :=
  ∀ (mode : AccMode) (chunks : List (List Byte)) (chunk : List Byte), chunks.flatten.length < 131 →
    Accumulator.feedAll mode chunks ⟨[]⟩ = ([], ⟨chunks.flatten⟩) ∧
    ((chunks.flatten ++ chunk).length = 131 →
      Accumulator.feed mode chunk ⟨chunks.flatten⟩ = (some (chunks.flatten ++ chunk), ⟨[]⟩))

/-- R141, R142, R145: in either mode the frames handed over and the bytes still held are, in order, all
the bytes fed: none is lost and none is repeated. In `strict131` mode this rests on the model's choice
of log entry 7. -/
def Obligations.AccumulatorKeepsEveryByte : Prop :=
  ∀ (mode : AccMode) (chunks : List (List Byte)) (a : Accumulator),
    (Accumulator.feedAll mode chunks a).1.flatten ++ (Accumulator.feedAll mode chunks a).2.buffer =
      a.buffer ++ chunks.flatten

/-- R144: every frame the accumulator hands over has at least 131 bytes (exactly 131 in `strict131`
mode), so no frame of it is a SHORT_FRAME. -/
def Obligations.AccumulatedFramesAreLong : Prop :=
  ∀ (mode : AccMode) (chunks : List (List Byte)) (a : Accumulator) (rom : Rom) (f : List Byte),
    f ∈ (Accumulator.feedAll mode chunks a).1 →
    131 ≤ f.length ∧ (mode = .strict131 → f.length = 131) ∧ decodeFrame rom f ≠ .error .shortFrame
end

