-- ==== Sys2Proof/Laws/State.lean ====
section
/-! SUPPORT. One lemma per field per update: what each named operation of Machine/Ops.lean and the
acceptance of a beat leave in each field of the state. -/

namespace Sys2Proof.Machine

@[simp] theorem setPv_pv (v : BitVec 32) (s : State) : (setPv v s).pv = v := rfl
@[simp] theorem setPv_index (v : BitVec 32) (s : State) : (setPv v s).index = s.index := rfl
@[simp] theorem setPv_hdrHi (v : BitVec 32) (s : State) : (setPv v s).hdrHi = s.hdrHi := rfl
@[simp] theorem setPv_phase (v : BitVec 32) (s : State) : (setPv v s).phase = s.phase := rfl
@[simp] theorem setPv_rom (v : BitVec 32) (s : State) : (setPv v s).rom = s.rom := rfl
@[simp] theorem setPv_input (v : BitVec 32) (s : State) : (setPv v s).input = s.input := rfl
@[simp] theorem setPv_output (v : BitVec 32) (s : State) : (setPv v s).output = s.output := rfl
@[simp] theorem setPv_pending (v : BitVec 32) (s : State) : (setPv v s).pending = s.pending := rfl
@[simp] theorem setPv_beatLast (v : BitVec 32) (s : State) : (setPv v s).beatLast = s.beatLast := rfl
@[simp] theorem setPv_frameBytes (v : BitVec 32) (s : State) : (setPv v s).frameBytes = s.frameBytes := rfl
@[simp] theorem setPv_freeCount (v : BitVec 32) (s : State) : (setPv v s).freeCount = s.freeCount := rfl

@[simp] theorem setIndex_pv (v : BitVec 7) (s : State) : (setIndex v s).pv = s.pv := rfl
@[simp] theorem setIndex_index (v : BitVec 7) (s : State) : (setIndex v s).index = v := rfl
@[simp] theorem setIndex_hdrHi (v : BitVec 7) (s : State) : (setIndex v s).hdrHi = s.hdrHi := rfl
@[simp] theorem setIndex_phase (v : BitVec 7) (s : State) : (setIndex v s).phase = s.phase := rfl
@[simp] theorem setIndex_rom (v : BitVec 7) (s : State) : (setIndex v s).rom = s.rom := rfl
@[simp] theorem setIndex_input (v : BitVec 7) (s : State) : (setIndex v s).input = s.input := rfl
@[simp] theorem setIndex_output (v : BitVec 7) (s : State) : (setIndex v s).output = s.output := rfl
@[simp] theorem setIndex_pending (v : BitVec 7) (s : State) : (setIndex v s).pending = s.pending := rfl
@[simp] theorem setIndex_beatLast (v : BitVec 7) (s : State) : (setIndex v s).beatLast = s.beatLast := rfl
@[simp] theorem setIndex_frameBytes (v : BitVec 7) (s : State) : (setIndex v s).frameBytes = s.frameBytes := rfl
@[simp] theorem setIndex_freeCount (v : BitVec 7) (s : State) : (setIndex v s).freeCount = s.freeCount := rfl

@[simp] theorem setHdrHi_pv (v : Byte) (s : State) : (setHdrHi v s).pv = s.pv := rfl
@[simp] theorem setHdrHi_index (v : Byte) (s : State) : (setHdrHi v s).index = s.index := rfl
@[simp] theorem setHdrHi_hdrHi (v : Byte) (s : State) : (setHdrHi v s).hdrHi = v := rfl
@[simp] theorem setHdrHi_phase (v : Byte) (s : State) : (setHdrHi v s).phase = s.phase := rfl
@[simp] theorem setHdrHi_rom (v : Byte) (s : State) : (setHdrHi v s).rom = s.rom := rfl
@[simp] theorem setHdrHi_input (v : Byte) (s : State) : (setHdrHi v s).input = s.input := rfl
@[simp] theorem setHdrHi_output (v : Byte) (s : State) : (setHdrHi v s).output = s.output := rfl
@[simp] theorem setHdrHi_pending (v : Byte) (s : State) : (setHdrHi v s).pending = s.pending := rfl
@[simp] theorem setHdrHi_beatLast (v : Byte) (s : State) : (setHdrHi v s).beatLast = s.beatLast := rfl
@[simp] theorem setHdrHi_frameBytes (v : Byte) (s : State) : (setHdrHi v s).frameBytes = s.frameBytes := rfl
@[simp] theorem setHdrHi_freeCount (v : Byte) (s : State) : (setHdrHi v s).freeCount = s.freeCount := rfl

@[simp] theorem setPhase_pv (p : Phase) (s : State) : (setPhase p s).pv = s.pv := rfl
@[simp] theorem setPhase_index (p : Phase) (s : State) : (setPhase p s).index = s.index := rfl
@[simp] theorem setPhase_hdrHi (p : Phase) (s : State) : (setPhase p s).hdrHi = s.hdrHi := rfl
@[simp] theorem setPhase_phase (p : Phase) (s : State) : (setPhase p s).phase = p := rfl
@[simp] theorem setPhase_rom (p : Phase) (s : State) : (setPhase p s).rom = s.rom := rfl
@[simp] theorem setPhase_input (p : Phase) (s : State) : (setPhase p s).input = s.input := rfl
@[simp] theorem setPhase_output (p : Phase) (s : State) : (setPhase p s).output = s.output := rfl
@[simp] theorem setPhase_pending (p : Phase) (s : State) : (setPhase p s).pending = s.pending := rfl
@[simp] theorem setPhase_beatLast (p : Phase) (s : State) : (setPhase p s).beatLast = s.beatLast := rfl
@[simp] theorem setPhase_frameBytes (p : Phase) (s : State) : (setPhase p s).frameBytes = s.frameBytes := rfl
@[simp] theorem setPhase_freeCount (p : Phase) (s : State) : (setPhase p s).freeCount = s.freeCount := rfl

@[simp] theorem emit_pv (e : Event) (s : State) : (emit e s).pv = s.pv := rfl
@[simp] theorem emit_index (e : Event) (s : State) : (emit e s).index = s.index := rfl
@[simp] theorem emit_hdrHi (e : Event) (s : State) : (emit e s).hdrHi = s.hdrHi := rfl
@[simp] theorem emit_phase (e : Event) (s : State) : (emit e s).phase = s.phase := rfl
@[simp] theorem emit_rom (e : Event) (s : State) : (emit e s).rom = s.rom := rfl
@[simp] theorem emit_input (e : Event) (s : State) : (emit e s).input = s.input := rfl
@[simp] theorem emit_output (e : Event) (s : State) : (emit e s).output = s.output ++ [e] := rfl
@[simp] theorem emit_pending (e : Event) (s : State) : (emit e s).pending = s.pending := rfl
@[simp] theorem emit_beatLast (e : Event) (s : State) : (emit e s).beatLast = s.beatLast := rfl
@[simp] theorem emit_frameBytes (e : Event) (s : State) : (emit e s).frameBytes = s.frameBytes := rfl
@[simp] theorem emit_freeCount (e : Event) (s : State) : (emit e s).freeCount = s.freeCount := rfl

@[simp] theorem raiseMalformed_pv (c : Cause) (s : State) : (raiseMalformed c s).pv = s.pv := rfl
@[simp] theorem raiseMalformed_index (c : Cause) (s : State) : (raiseMalformed c s).index = s.index := rfl
@[simp] theorem raiseMalformed_hdrHi (c : Cause) (s : State) : (raiseMalformed c s).hdrHi = s.hdrHi := rfl
@[simp] theorem raiseMalformed_phase (c : Cause) (s : State) : (raiseMalformed c s).phase = (if s.beatLast then .h0 else .drop) := rfl
@[simp] theorem raiseMalformed_rom (c : Cause) (s : State) : (raiseMalformed c s).rom = s.rom := rfl
@[simp] theorem raiseMalformed_input (c : Cause) (s : State) : (raiseMalformed c s).input = s.input := rfl
@[simp] theorem raiseMalformed_output (c : Cause) (s : State) : (raiseMalformed c s).output = s.output ++ [.frameError c] := rfl
@[simp] theorem raiseMalformed_pending (c : Cause) (s : State) : (raiseMalformed c s).pending = s.pending := rfl
@[simp] theorem raiseMalformed_beatLast (c : Cause) (s : State) : (raiseMalformed c s).beatLast = s.beatLast := rfl
@[simp] theorem raiseMalformed_frameBytes (c : Cause) (s : State) : (raiseMalformed c s).frameBytes = s.frameBytes := rfl
@[simp] theorem raiseMalformed_freeCount (c : Cause) (s : State) : (raiseMalformed c s).freeCount = s.freeCount := rfl

@[simp] theorem discardByte_pv (s : State) : (discardByte s).pv = s.pv := rfl
@[simp] theorem discardByte_index (s : State) : (discardByte s).index = s.index := rfl
@[simp] theorem discardByte_hdrHi (s : State) : (discardByte s).hdrHi = s.hdrHi := rfl
@[simp] theorem discardByte_phase (s : State) : (discardByte s).phase = (if s.beatLast then .h0 else .drop) := rfl
@[simp] theorem discardByte_rom (s : State) : (discardByte s).rom = s.rom := rfl
@[simp] theorem discardByte_input (s : State) : (discardByte s).input = s.input := rfl
@[simp] theorem discardByte_output (s : State) : (discardByte s).output = s.output := rfl
@[simp] theorem discardByte_pending (s : State) : (discardByte s).pending = s.pending := rfl
@[simp] theorem discardByte_beatLast (s : State) : (discardByte s).beatLast = s.beatLast := rfl
@[simp] theorem discardByte_frameBytes (s : State) : (discardByte s).frameBytes = s.frameBytes := rfl
@[simp] theorem discardByte_freeCount (s : State) : (discardByte s).freeCount = s.freeCount := rfl

@[simp] theorem endFrame_pv (s : State) : (endFrame s).pv = s.pv := rfl
@[simp] theorem endFrame_index (s : State) : (endFrame s).index = s.index := rfl
@[simp] theorem endFrame_hdrHi (s : State) : (endFrame s).hdrHi = s.hdrHi := rfl
@[simp] theorem endFrame_phase (s : State) : (endFrame s).phase = .h0 := rfl
@[simp] theorem endFrame_rom (s : State) : (endFrame s).rom = s.rom := rfl
@[simp] theorem endFrame_input (s : State) : (endFrame s).input = s.input := rfl
@[simp] theorem endFrame_output (s : State) : (endFrame s).output = s.output ++ [.frameDone] := rfl
@[simp] theorem endFrame_pending (s : State) : (endFrame s).pending = s.pending := rfl
@[simp] theorem endFrame_beatLast (s : State) : (endFrame s).beatLast = s.beatLast := rfl
@[simp] theorem endFrame_frameBytes (s : State) : (endFrame s).frameBytes = s.frameBytes := rfl
@[simp] theorem endFrame_freeCount (s : State) : (endFrame s).freeCount = s.freeCount := rfl

@[simp] theorem writeNibble_pv (r : NibbleResult) (s : State) : (writeNibble r s).pv = BitVec.ofInt 32 r.pv := rfl
@[simp] theorem writeNibble_index (r : NibbleResult) (s : State) : (writeNibble r s).index = BitVec.ofNat 7 r.index.val := rfl
@[simp] theorem writeNibble_hdrHi (r : NibbleResult) (s : State) : (writeNibble r s).hdrHi = s.hdrHi := rfl
@[simp] theorem writeNibble_phase (r : NibbleResult) (s : State) : (writeNibble r s).phase = s.phase := rfl
@[simp] theorem writeNibble_rom (r : NibbleResult) (s : State) : (writeNibble r s).rom = s.rom := rfl
@[simp] theorem writeNibble_input (r : NibbleResult) (s : State) : (writeNibble r s).input = s.input := rfl
@[simp] theorem writeNibble_output (r : NibbleResult) (s : State) : (writeNibble r s).output = s.output ++ [.sample r.sample] := rfl
@[simp] theorem writeNibble_pending (r : NibbleResult) (s : State) : (writeNibble r s).pending = s.pending := rfl
@[simp] theorem writeNibble_beatLast (r : NibbleResult) (s : State) : (writeNibble r s).beatLast = s.beatLast := rfl
@[simp] theorem writeNibble_frameBytes (r : NibbleResult) (s : State) : (writeNibble r s).frameBytes = s.frameBytes := rfl
@[simp] theorem writeNibble_freeCount (r : NibbleResult) (s : State) : (writeNibble r s).freeCount = s.freeCount := rfl

@[simp] theorem acceptBeat_pv (v : Byte) (last : Bool) (rest : List PortItem) (s : State) :
    (acceptBeat v last rest s).pv = s.pv := rfl
@[simp] theorem acceptBeat_index (v : Byte) (last : Bool) (rest : List PortItem) (s : State) :
    (acceptBeat v last rest s).index = s.index := rfl
@[simp] theorem acceptBeat_hdrHi (v : Byte) (last : Bool) (rest : List PortItem) (s : State) :
    (acceptBeat v last rest s).hdrHi = s.hdrHi := rfl
@[simp] theorem acceptBeat_phase (v : Byte) (last : Bool) (rest : List PortItem) (s : State) :
    (acceptBeat v last rest s).phase = s.phase := rfl
@[simp] theorem acceptBeat_rom (v : Byte) (last : Bool) (rest : List PortItem) (s : State) :
    (acceptBeat v last rest s).rom = s.rom := rfl
@[simp] theorem acceptBeat_input (v : Byte) (last : Bool) (rest : List PortItem) (s : State) :
    (acceptBeat v last rest s).input = rest := rfl
@[simp] theorem acceptBeat_output (v : Byte) (last : Bool) (rest : List PortItem) (s : State) :
    (acceptBeat v last rest s).output = s.output := rfl
@[simp] theorem acceptBeat_pending (v : Byte) (last : Bool) (rest : List PortItem) (s : State) :
    (acceptBeat v last rest s).pending = (if s.phase = .pay then some v else none) := rfl
@[simp] theorem acceptBeat_beatLast (v : Byte) (last : Bool) (rest : List PortItem) (s : State) :
    (acceptBeat v last rest s).beatLast = last := rfl
@[simp] theorem acceptBeat_frameBytes (v : Byte) (last : Bool) (rest : List PortItem) (s : State) :
    (acceptBeat v last rest s).frameBytes = nextFrameBytes s := rfl
@[simp] theorem acceptBeat_freeCount (v : Byte) (last : Bool) (rest : List PortItem) (s : State) :
    (acceptBeat v last rest s).freeCount = s.freeCount := rfl

@[simp] theorem takeReset_pv (s : State) : (takeReset s).pv = Config.freePv s.freeCount := rfl
@[simp] theorem takeReset_index (s : State) : (takeReset s).index = Config.freeIndex s.freeCount := rfl
@[simp] theorem takeReset_hdrHi (s : State) : (takeReset s).hdrHi = Config.freeHdrHi s.freeCount := rfl
@[simp] theorem takeReset_phase (s : State) : (takeReset s).phase = .h0 := rfl
@[simp] theorem takeReset_rom (s : State) : (takeReset s).rom = s.rom := rfl
@[simp] theorem takeReset_input (s : State) : (takeReset s).input = s.input := rfl
@[simp] theorem takeReset_output (s : State) : (takeReset s).output = s.output := rfl
@[simp] theorem takeReset_pending (s : State) : (takeReset s).pending = s.pending := rfl
@[simp] theorem takeReset_beatLast (s : State) : (takeReset s).beatLast = s.beatLast := rfl
@[simp] theorem takeReset_frameBytes (s : State) : (takeReset s).frameBytes = s.frameBytes := rfl
@[simp] theorem takeReset_freeCount (s : State) : (takeReset s).freeCount = s.freeCount + 1 := rfl

end Sys2Proof.Machine
end

