-- ==== Sys2Proof/Laws/Ops.lean ====
section
/-! SUPPORT. What each shared operation can do, said once: the arithmetic of a nibble operation, the
reading of `STEP_ROM`, the nibble operation itself, and the dispatch on a nibble. -/

namespace Sys2Proof.Machine

theorem clamp_eq_max_min (v lo hi : Int) (h : lo ≤ hi) : clamp v lo hi = max lo (min hi v) := by
  unfold clamp; split
  · omega
  · split <;> omega

theorem sat16_eq (v : Int) : sat16 v = max (-32768) (min 32767 v) :=
  clamp_eq_max_min v _ _ (by decide)

theorem sat16_range (v : Int) : -32768 ≤ sat16 v ∧ sat16 v ≤ 32767 := by
  rw [sat16_eq]; omega

theorem fits32_iff (v : Int) : fits32 v = true ↔ -2147483648 ≤ v ∧ v ≤ 2147483647 := by
  simp [fits32]

theorem adaptIndex_cast (index : Nat) (delta : Int) :
    (adaptIndex index delta : Int) = max 0 (min 88 (index + delta)) := by
  unfold adaptIndex
  rw [clamp_eq_max_min _ _ _ (by decide)]
  simp [Config.indexMax]

/-- A 32-bit register holds a value that fits it exactly. -/
theorem toInt_ofInt32 {v : Int} (h : fits32 v = true) : (BitVec.ofInt 32 v).toInt = v := by
  rw [fits32_iff] at h
  rw [BitVec.toInt_ofInt, Int.bmod_def]
  split <;> omega

/-- A 7-bit register holds an index exactly. -/
theorem toNat_index7 (i : Fin 89) : (BitVec.ofNat 7 i.val).toNat = i.val := by
  rw [BitVec.toNat_ofNat]; omega

theorem seedPv_eq (hi lo : Byte) :
    seedPv hi lo = (hi.toNat * 256 + lo.toNat : Int) - (if 128 ≤ hi.toNat then 65536 else 0) := by
  have := hi.isLt
  have := lo.isLt
  unfold seedPv sext16
  split <;> split <;> omega

theorem seedPv_range (hi lo : Byte) : -32768 ≤ seedPv hi lo ∧ seedPv hi lo ≤ 32767 := by
  have := hi.isLt
  have := lo.isLt
  unfold seedPv sext16
  split <;> omega

theorem seedPv_fits (hi lo : Byte) : fits32 (seedPv hi lo) = true := by
  rw [fits32_iff]; have := seedPv_range hi lo; omega

/-- A bit of a nibble, as arithmetic on its value. -/
theorem nibble_bit (n : Nibble) (k : Nat) : n.getLsbD k = decide (n.toNat / 2 ^ k % 2 = 1) := by
  simp only [BitVec.getLsbD, Nat.testBit_eq_decide_div_mod_eq]

/-- `diff` as R84 has it, the bits read off the nibble's value. -/
theorem reconstructDiff_eq (step : Nat) (n : Nibble) :
    reconstructDiff step n = step / 8 + (if n.toNat / 4 % 2 = 1 then step else 0)
      + (if n.toNat / 2 % 2 = 1 then step / 2 else 0) + (if n.toNat % 2 = 1 then step / 4 else 0) := by
  simp only [reconstructDiff, nibble_bit, Nat.shiftRight_eq_div_pow, decide_eq_true_eq, Nat.pow_zero, Nat.div_one]
  rfl

theorem reconstructDiff_le (step : Nat) (n : Nibble) : reconstructDiff step n ≤ maxDiff step := by
  unfold reconstructDiff maxDiff
  split <;> split <;> split <;> omega

theorem maxDiff_le {step : Nat} (h : step ≤ 32767) : maxDiff step ≤ 61436 := by
  unfold maxDiff; omega

theorem stepAt_le (rom : Rom) (i : Fin 89) : stepAt rom i ≤ 32767 := by
  unfold stepAt; have := (rom.stepRom[i]).isLt; omega

theorem signBit_eq (n : Nibble) : signBit n = decide (8 ≤ n.toNat) := by
  have := n.isLt
  rw [signBit, nibble_bit]
  congr 1
  simp only [eq_iff_iff]
  omega

/-- One nibble moves the predictor by at most 61436 (R22). -/
theorem nibbleStep_pv_near (rom : Rom) (pv : Int) (i : Fin 89) (n : Nibble) :
    pv - 61436 ≤ (nibbleStep rom pv i n).pv ∧ (nibbleStep rom pv i n).pv ≤ pv + 61436 := by
  have h := reconstructDiff_le (stepAt rom i) n
  have := maxDiff_le (stepAt_le rom i)
  simp only [nibbleStep, applySign]
  split <;> omega

theorem nibbleStep_sample (rom : Rom) (pv : Int) (i : Fin 89) (n : Nibble) :
    (nibbleStep rom pv i n).sample = sat16 (nibbleStep rom pv i n).pv := rfl

theorem nibbleStep_index_cast (rom : Rom) (pv : Int) (i : Fin 89) (n : Nibble) :
    ((nibbleStep rom pv i n).index.val : Int) = max 0 (min 88 (i.val + deltaAt rom n)) :=
  adaptIndex_cast _ _

/-- Everything `readStep` can answer. -/
theorem readStep_cases (s : State) :
    (∃ i : Fin 89, s.index.toNat = i.val ∧ 1 ≤ stepAt s.rom i ∧ readStep s = .entry i) ∨
    (∃ i : Fin 89, s.index.toNat = i.val ∧ stepAt s.rom i = 0 ∧ readStep s = .illegal) ∨
    (88 < s.index.toNat ∧ readStep s = .absent) := by
  unfold readStep
  by_cases h : s.index.toNat < 89
  · by_cases hz : stepAt s.rom ⟨s.index.toNat, h⟩ = 0
    · exact .inr (.inl ⟨⟨s.index.toNat, h⟩, rfl, hz, by simp [h, hz]⟩)
    · exact .inl ⟨⟨s.index.toNat, h⟩, rfl, by omega, by simp [h, hz]⟩
  · exact .inr (.inr ⟨by omega, by simp [h]⟩)

theorem readStep_entry {s : State} {i : Fin 89} (hi : s.index.toNat = i.val) (hs : 1 ≤ stepAt s.rom i) :
    readStep s = .entry i := by
  have h : s.index.toNat < 89 := by omega
  have e : (⟨s.index.toNat, h⟩ : Fin 89) = i := Fin.ext hi
  have hz : ¬ stepAt s.rom i = 0 := by omega
  simp [readStep, h, e, hz]

/-- Where a nibble operation completes, and with what. -/
theorem nibbleOp_next {s : State} {i : Fin 89} {n : Nibble} (hi : s.index.toNat = i.val)
    (hs : 1 ≤ stepAt s.rom i) (hf : fits32 (nibbleStep s.rom s.pv.toInt i n).pv = true) :
    nibbleOp n s = .next (writeNibble (nibbleStep s.rom s.pv.toInt i n) s) := by
  simp [nibbleOp, readStep_entry hi hs, hf]

/-- What a nibble operation that completes has done. -/
theorem nibbleOp_inv {s t : State} {n : Nibble} (h : nibbleOp n s = .next t) :
    ∃ i : Fin 89, s.index.toNat = i.val ∧ 1 ≤ stepAt s.rom i ∧
      fits32 (nibbleStep s.rom s.pv.toInt i n).pv = true ∧
      t = writeNibble (nibbleStep s.rom s.pv.toInt i n) s := by
  unfold nibbleOp at h
  rcases readStep_cases s with ⟨i, hi, hs, hr⟩ | ⟨i, hi, hz, hr⟩ | ⟨hi, hr⟩
  · rw [hr] at h
    by_cases hf : fits32 (nibbleStep s.rom s.pv.toInt i n).pv = true
    · simp only [hf, if_true] at h
      exact ⟨i, hi, hs, hf, by injection h with h; exact h.symm⟩
    · simp [hf] at h
  · simp [hr] at h
  · simp [hr] at h

/-- Every nibble's operation means the shared nibble operation on its code. -/
theorem exec_ofNibble (n : Nibble) (s : State) : exec (ofNibble n) s = nibbleOp n s := by
  have key : ∀ m : Fin 16, exec (ofNibble (BitVec.ofFin m)) s = nibbleOp (BitVec.ofFin m) s := by
    intro m; fin_cases m <;> rfl
  exact key n.toFin

theorem nibbleCode_ofNibble (n : Nibble) : nibbleCode (ofNibble n) = some n := by
  have key : ∀ m : Fin 16, nibbleCode (ofNibble (BitVec.ofFin m)) = some (BitVec.ofFin m) := by decide
  exact key n.toFin

/-- An operation with a code is the operation of that code. -/
theorem eq_ofNibble {i : Instr} {n : Nibble} (h : nibbleCode i = some n) : i = ofNibble n := by
  cases i <;> simp only [nibbleCode, Option.some.injEq, reduceCtorEq] at h <;> subst h <;> rfl

/-- The unclamped predictor a nibble leaves (R85). -/
theorem nibbleStep_pv (rom : Rom) (pv : Int) (i : Fin 89) (n : Nibble) :
    (nibbleStep rom pv i n).pv =
      if n.toNat < 8 then pv + (reconstructDiff (stepAt rom i) n : Int)
      else pv - (reconstructDiff (stepAt rom i) n : Int) := by
  simp only [nibbleStep, applySign, signBit_eq, decide_eq_true_eq]
  split <;> split <;> omega

/-- The writes of a nibble operation, as the state written out from R82, R85, R86 and R89. -/
theorem writeNibble_eq_afterNibble (s : State) (i : Fin 89) (n : Nibble) :
    writeNibble (nibbleStep s.rom s.pv.toInt i n) s =
      afterNibble s (nibbleStep s.rom s.pv.toInt i n).pv (i.val + deltaAt s.rom n) := by
  unfold writeNibble afterNibble emit setIndex setPv
  rw [← nibbleStep_index_cast s.rom s.pv.toInt i n, nibbleStep_sample, sat16_eq]
  rfl

/-- A nibble operation reads only `INDEX`, `PV` and the tables: on two states that agree on them it
stops alike or makes the same writes (R89). -/
theorem nibbleOp_congr (n : Nibble) {s t : State} (hi : s.index = t.index) (hp : s.pv = t.pv)
    (hr : s.rom = t.rom) :
    (∃ r, nibbleOp n s = .next (writeNibble r s) ∧ nibbleOp n t = .next (writeNibble r t)) ∨
    (∃ f, nibbleOp n s = .fault f ∧ nibbleOp n t = .fault f) ∨
    (∃ f, nibbleOp n s = .refused f ∧ nibbleOp n t = .refused f) := by
  have e : readStep t = readStep s := by unfold readStep; rw [hi, hr]
  unfold nibbleOp
  rw [e, ← hp, ← hr]
  cases readStep s with
  | absent => exact .inr (.inl ⟨_, rfl, rfl⟩)
  | illegal => exact .inr (.inr ⟨_, rfl, rfl⟩)
  | entry i =>
    by_cases hf : fits32 (nibbleStep s.rom s.pv.toInt i n).pv = true
    · exact .inl ⟨nibbleStep s.rom s.pv.toInt i n, by simp only [hf, if_true], by simp only [hf, if_true]⟩
    · exact .inr (.inr ⟨.pvOverflow, by simp [hf], by simp [hf]⟩)

/-- R22's bound grows by one nibble's largest `diff`. -/
theorem PvBound_nibbleStep {k : Nat} {pv : Int} (h : PvBound k pv) (rom : Rom) (i : Fin 89) (n : Nibble) :
    PvBound (k + 1) (nibbleStep rom pv i n).pv := by
  have := nibbleStep_pv_near rom pv i n
  unfold PvBound at *
  push_cast
  omega

/-- Within `MAX_FRAME_BYTES` the bound is within 32 bits (R22). -/
theorem PvBound_fits {k : Nat} {pv : Int} (h : PvBound k pv) (hk : k ≤ 34954) : fits32 pv = true := by
  unfold PvBound at h
  rw [fits32_iff]
  omega

theorem eventOk_sample (rom : Rom) (pv : Int) (i : Fin 89) (n : Nibble) :
    EventOk (.sample (nibbleStep rom pv i n).sample) := by
  rw [nibbleStep_sample]
  exact sat16_range _

theorem wellFormed_ofNibble (n : Nibble) : (ofNibble n).wellFormed = true := by
  have key : ∀ m : Fin 16, (ofNibble (BitVec.ofFin m)).wellFormed = true := by decide
  exact key n.toFin

theorem highNibble_payloadByte (hi lo : Nibble) : highNibble (payloadByte hi lo) = hi := by
  have key : ∀ a b : Fin 16, highNibble (payloadByte (BitVec.ofFin a) (BitVec.ofFin b)) = BitVec.ofFin a := by
    decide +kernel
  exact key hi.toFin lo.toFin

theorem lowNibble_payloadByte (hi lo : Nibble) : lowNibble (payloadByte hi lo) = lo := by
  have key : ∀ a b : Fin 16, lowNibble (payloadByte (BitVec.ofFin a) (BitVec.ofFin b)) = BitVec.ofFin b := by
    decide +kernel
  exact key hi.toFin lo.toFin

theorem payloadByte_nibbles (b : Byte) : payloadByte (highNibble b) (lowNibble b) = b := by
  have key : ∀ a : Fin 256,
      payloadByte (highNibble (BitVec.ofFin a)) (lowNibble (BitVec.ofFin a)) = BitVec.ofFin a := by
    decide +kernel
  exact key b.toFin

end Sys2Proof.Machine
end

