-- ==== Sys2Proof/Laws/Frame.lean ====
section
/-! SUPPORT. Small lemmas of the frame-level function, of a frame's beats, and of the accumulator. -/

namespace Sys2Proof.Machine

theorem decodeNibbles_length (rom : Rom) (ns : List Nibble) :
    ∀ pv idx, (decodeNibbles rom pv idx ns).length = ns.length := by
  induction ns with
  | nil => intros; rfl
  | cons n ns ih => intro pv idx; simp [decodeNibbles, ih]

theorem payloadNibbles_length (p : List Byte) : (payloadNibbles p).length = 2 * p.length := by
  induction p with
  | nil => rfl
  | cons b p ih => simp [payloadNibbles, ih]; omega

/-- A frame that decodes has a header with a legal seed index (R120). -/
theorem decodeFrame_ok {rom : Rom} {f : List Byte} {out : List Int} (h : decodeFrame rom f = .ok out) :
    ∃ b0 b1 b2 p, ∃ hv : b2.toNat < 89, f = b0 :: b1 :: b2 :: p ∧
      out = decodeNibbles rom (seedPv b0 b1) ⟨b2.toNat, hv⟩ (payloadNibbles p) := by
  unfold decodeFrame at h
  split at h
  · cases h
  · split at h <;> try (cases h)
    split at h
    · rename_i _ b0 b1 b2 p _ hv
      injection h with h
      exact ⟨b0, b1, b2, p, hv, rfl, h.symm⟩
    · cases h

theorem frameBeats_cons_cons (a b : Byte) (l : List Byte) :
    frameBeats (a :: b :: l) = .beat a false :: frameBeats (b :: l) := rfl

theorem frameBeats_length (f : List Byte) : (frameBeats f).length = f.length := by
  induction f with
  | nil => rfl
  | cons a f ih =>
    cases f with
    | nil => rfl
    | cons b f => simp [frameBeats_cons_cons, ih]

/-- One call loses no byte and repeats none. -/
theorem feed_keeps_bytes (mode : AccMode) (c : List Byte) (a : Accumulator) :
    (a.feed mode c).1.toList.flatten ++ (a.feed mode c).2.buffer = a.buffer ++ c := by
  unfold Accumulator.feed
  split
  · simp
  · cases mode <;> simp

end Sys2Proof.Machine
end

