-- ==== Sys2Proof/Laws/PerInstr.lean ====
section
/-! SUPPORT. The per-instruction family `Encoding`: every operation's word, read at the operation's own
position, decodes to the operation (spec/30_encoding.md R60 to R62). -/

namespace Sys2Proof.Laws.Encoding

/-- The round trip of one operation. -/
def Statement (i : Instr) : Prop := decode (homePosition i) (encode i) = .instr i

theorem hdrPvHi (v : Byte) : Statement (.hdrPvHi v) := rfl
theorem hdrPvLo (v : Byte) : Statement (.hdrPvLo v) := rfl
theorem hdrIndex (v : Byte) : Statement (.hdrIndex v) := rfl
theorem nib0 : Statement .nib0 := rfl
theorem nib1 : Statement .nib1 := rfl
theorem nib2 : Statement .nib2 := rfl
theorem nib3 : Statement .nib3 := rfl
theorem nib4 : Statement .nib4 := rfl
theorem nib5 : Statement .nib5 := rfl
theorem nib6 : Statement .nib6 := rfl
theorem nib7 : Statement .nib7 := rfl
theorem nib8 : Statement .nib8 := rfl
theorem nib9 : Statement .nib9 := rfl
theorem nibA : Statement .nibA := rfl
theorem nibB : Statement .nibB := rfl
theorem nibC : Statement .nibC := rfl
theorem nibD : Statement .nibD := rfl
theorem nibE : Statement .nibE := rfl
theorem nibF : Statement .nibF := rfl

end Sys2Proof.Laws.Encoding
end

