-- ==== Sys2Proof/Laws/Step.lean ====
section
/-! SUPPORT. What a step can do, said once: the inversion of the step function, from which every
invariant is derived. -/

namespace Sys2Proof.Machine

theorem mapNext_next {f : State → State} {o : Result} {t : State} (h : mapNext f o = .next t) :
    ∃ u, o = .next u ∧ t = f u := by
  cases o <;> simp_all [mapNext]

theorem mapNext_id (o : Result) : mapNext (fun s => s) o = o := by
  cases o <;> rfl

/-- A step with a second nibble waiting. -/
theorem step_low {s : State} {v : Byte} (h : s.pending = some v) :
    step s = mapNext (afterOp .payLow) (nibbleOp (lowNibble v) { s with pending := none }) := by
  simp [step, fetch, h, runByte, decode, exec_ofNibble]

theorem step_wait {s : State} (h : s.pending = none) (hi : s.input = []) : step s = .next s := by
  simp [step, fetch, h, hi]

theorem step_reset {s : State} {rest : List PortItem} (h : s.pending = none) (hi : s.input = .reset :: rest) :
    step s = .next (takeReset { s with input := rest }) := by
  simp [step, fetch, h, hi]

theorem step_tooLong {s : State} {v : Byte} {last : Bool} {rest : List PortItem} (h : s.pending = none)
    (hi : s.input = .beat v last :: rest) (hl : Config.maxFrameBytes < nextFrameBytes s) :
    step s = .refused .frameTooLong := by
  simp [step, fetch, h, hi, hl]

theorem step_beat {s : State} {v : Byte} {last : Bool} {rest : List PortItem} (h : s.pending = none)
    (hi : s.input = .beat v last :: rest) (hl : nextFrameBytes s ≤ Config.maxFrameBytes) :
    step s = runByte s.phase.position v (acceptBeat v last rest s) := by
  simp [step, fetch, h, hi, Nat.not_lt.mpr hl]

/-- The outcome of a beat, by phase (R126 to R130). -/
theorem runByte_h0 (v : Byte) (s : State) : runByte .h0 v s = execHdrPvHi v s := mapNext_id _

theorem runByte_h1 (v : Byte) (s : State) : runByte .h1 v s = execHdrPvLo v s := mapNext_id _

theorem runByte_h2 (v : Byte) (s : State) : runByte .h2 v s = execHdrIndex v s := mapNext_id _

theorem runByte_payHigh (v : Byte) (s : State) : runByte .payHigh v s = nibbleOp (highNibble v) s :=
  (mapNext_id _).trans (exec_ofNibble _ _)

theorem runByte_drop (v : Byte) (s : State) : runByte .drop v s = .next (discardByte s) := rfl

/-- Every way a step can go on. -/
theorem step_cases {s t : State} (h : step s = .next t) :
    (∃ v u, s.pending = some v ∧ nibbleOp (lowNibble v) { s with pending := none } = .next u ∧
      t = if u.beatLast then endFrame u else u) ∨
    (s.pending = none ∧ s.input = [] ∧ t = s) ∨
    (∃ rest, s.pending = none ∧ s.input = .reset :: rest ∧ t = takeReset { s with input := rest }) ∨
    (∃ v last rest, s.pending = none ∧ s.input = .beat v last :: rest ∧
      nextFrameBytes s ≤ Config.maxFrameBytes ∧
      ((s.phase = .h0 ∧ execHdrPvHi v (acceptBeat v last rest s) = .next t) ∨
        (s.phase = .h1 ∧ execHdrPvLo v (acceptBeat v last rest s) = .next t) ∨
        (s.phase = .h2 ∧ execHdrIndex v (acceptBeat v last rest s) = .next t) ∨
        (s.phase = .pay ∧ nibbleOp (highNibble v) (acceptBeat v last rest s) = .next t) ∨
        (s.phase = .drop ∧ t = discardByte (acceptBeat v last rest s)))) := by
  rcases hp : s.pending with _ | v
  · rcases hi : s.input with _ | ⟨item, rest⟩
    · rw [step_wait hp hi] at h; injection h with h; exact .inr (.inl ⟨rfl, rfl, h.symm⟩)
    · rcases item with ⟨v, last⟩ | _
      · by_cases hl : nextFrameBytes s ≤ Config.maxFrameBytes
        · rw [step_beat hp hi hl] at h
          refine .inr (.inr (.inr ⟨v, last, rest, rfl, rfl, hl, ?_⟩))
          cases hph : s.phase <;> rw [hph] at h <;> simp only [Phase.position] at h
          · rw [runByte_h0] at h; simp [h]
          · rw [runByte_h1] at h; simp [h]
          · rw [runByte_h2] at h; simp [h]
          · rw [runByte_payHigh] at h; simp [h]
          · rw [runByte_drop] at h; injection h with h; simp [h]
        · rw [step_tooLong hp hi (by omega)] at h; cases h
      · rw [step_reset hp hi] at h; injection h with h; simp only [hp] at h; exact .inr (.inr (.inl ⟨rest, rfl, rfl, h.symm⟩))
  · rw [step_low hp] at h
    obtain ⟨u, hu, rfl⟩ := mapNext_next h
    exact .inl ⟨v, u, rfl, hu, rfl⟩

/-- Every way HDR_PV_HI can end: it never stops. -/
theorem execHdrPvHi_cases {v : Byte} {s t : State} (h : execHdrPvHi v s = .next t) :
    (s.beatLast = true ∧ t = raiseMalformed .shortFrame s) ∨
    (s.beatLast = false ∧ t = setPhase .h1 (setHdrHi v s)) := by
  unfold execHdrPvHi at h
  cases hb : s.beatLast <;> simp_all

/-- Every way HDR_PV_LO can end: it never stops. -/
theorem execHdrPvLo_cases {v : Byte} {s t : State} (h : execHdrPvLo v s = .next t) :
    (s.beatLast = true ∧ t = raiseMalformed .shortFrame s) ∨
    (s.beatLast = false ∧ t = setPhase .h2 (setPv (BitVec.ofInt 32 (seedPv s.hdrHi v)) s)) := by
  unfold execHdrPvLo at h
  cases hb : s.beatLast <;> simp_all

/-- Every way HDR_INDEX can end: it never stops. -/
theorem execHdrIndex_cases {v : Byte} {s t : State} (h : execHdrIndex v s = .next t) :
    (88 < v.toNat ∧ t = raiseMalformed .badSeedIndex s) ∨
    (v.toNat ≤ 88 ∧ s.beatLast = true ∧ t = endFrame (setIndex (v.setWidth 7) s)) ∨
    (v.toNat ≤ 88 ∧ s.beatLast = false ∧ t = setPhase .pay (setIndex (v.setWidth 7) s)) := by
  unfold execHdrIndex at h
  by_cases hv : v.toNat > Config.indexMax
  · simp only [hv, if_true] at h
    injection h with h
    exact .inl ⟨hv, h.symm⟩
  · have hv' : v.toNat ≤ 88 := by simpa [Config.indexMax] using hv
    cases hb : s.beatLast <;> simp_all

/-- A legal seed index fits the 7-bit register. -/
theorem toNat_setWidth7 {v : Byte} (h : v.toNat ≤ 88) : (v.setWidth 7).toNat = v.toNat := by
  rw [BitVec.toNat_setWidth]; omega

theorem setWidth7_eq (v : Byte) : v.setWidth 7 = BitVec.ofNat 7 v.toNat := by
  apply BitVec.eq_of_toNat_eq
  simp

theorem execHdrPvHi_next {v : Byte} {s : State} (h : s.beatLast = false) :
    execHdrPvHi v s = .next (setPhase .h1 (setHdrHi v s)) := by
  simp [execHdrPvHi, h]

theorem execHdrPvLo_next {v : Byte} {s : State} (h : s.beatLast = false) :
    execHdrPvLo v s = .next (setPhase .h2 (setPv (BitVec.ofInt 32 (seedPv s.hdrHi v)) s)) := by
  simp [execHdrPvLo, h]

theorem execHdrIndex_next {v : Byte} {s : State} (h : s.beatLast = false) (hv : v.toNat ≤ 88) :
    execHdrIndex v s = .next (setPhase .pay (setIndex (v.setWidth 7) s)) := by
  simp [execHdrIndex, h, Nat.not_lt.mpr hv]

theorem run_zero (s : State) : run 0 s = .next s := rfl

theorem run_succ {k : Nat} {s t : State} (h : step s = .next t) : run (k + 1) s = run k t := by
  rw [run, h]

/-- A run can be cut in two. -/
theorem run_add {k l : Nat} {s t : State} (h : run k s = .next t) : run (k + l) s = run l t := by
  induction k generalizing s with
  | zero => rw [run_zero] at h; injection h with h; subst h; rw [Nat.zero_add]
  | succ k ih =>
    rw [run] at h
    rw [Nat.add_right_comm, run]
    cases hs : step s <;> rw [hs] at h <;> first | exact ih h | cases h

end Sys2Proof.Machine
end

