-- ==== Sys2Proof/Tests/Slice0.lean ====
section
/-! SUPPORT. The model's own tests. Expected values come from spec/95_test_vectors.md and from the examples
of the rules, never from the model. The witnesses at the end show, for each statement with
hypotheses, a concrete case that meets them all. -/

namespace Sys2Proof.Machine

/-! ### Helpers -/

/-- A state in PAY with a given predictor and index and the default tables. -/
def nibState (pv : Int) (index : Nat) : State :=
  { State.reset with phase := .pay, frameBytes := 3, pv := BitVec.ofInt 32 pv, index := BitVec.ofNat 7 index }

/-- `PV'`, `INDEX'` and the events of an outcome. -/
def seen : Result → Option (Int × Nat × List Event)
  | .next s => some (s.pv.toInt, s.index.toNat, s.output)
  | .fault _ => none
  | .refused _ => none

/-- `PHASE`, `PV`, `INDEX`, `HDR_HI` and the events of an outcome. -/
def seenHeader : Result → Option (Phase × Int × Nat × Nat × List Event)
  | .next s => some (s.phase, s.pv.toInt, s.index.toNat, s.hdrHi.toNat, s.output)
  | .fault _ => none
  | .refused _ => none

/-- A state at a phase with one beat to come. -/
def beatState (p : Phase) (v : Byte) (last : Bool) : State :=
  { State.reset with phase := p, frameBytes := 3, input := [.beat v last] }

/-! ### Well-formedness: the one check, and the ill-formed term it refuses (R61) -/

theorem test_wf_refuses_89 : (Instr.hdrIndex 89#8).wellFormed = false := by decide
theorem test_wf_refuses_255 : (Instr.hdrIndex 255#8).wellFormed = false := by decide
theorem test_wf_admits_88 : (Instr.hdrIndex 88#8).wellFormed = true := by decide

/-! ### Decoding: words written out from R52 to R60 -/

theorem test_decode_h0 : decode .h0 0b00000001#8 = .instr (.hdrPvHi 1#8) := by decide
theorem test_decode_h1 : decode .h1 0b11111111#8 = .instr (.hdrPvLo 255#8) := by decide
theorem test_decode_h2 : decode .h2 0b01011000#8 = .instr (.hdrIndex 88#8) := by decide
theorem test_decode_drop : decode .drop 0xAA#8 = .discarded := by decide
theorem test_decode_low_codes :
    [0b0000#8, 0b0001#8, 0b0010#8, 0b0011#8, 0b0100#8, 0b0101#8, 0b0110#8, 0b0111#8].map (decode .payLow) =
      [.instr .nib0, .instr .nib1, .instr .nib2, .instr .nib3, .instr .nib4, .instr .nib5, .instr .nib6,
        .instr .nib7] := by decide
theorem test_decode_high_codes :
    [0x80#8, 0x90#8, 0xA0#8, 0xB0#8, 0xC0#8, 0xD0#8, 0xE0#8, 0xF0#8].map (decode .payHigh) =
      [.instr .nib8, .instr .nib9, .instr .nibA, .instr .nibB, .instr .nibC, .instr .nibD, .instr .nibE,
        .instr .nibF] := by decide
/-- R59: "`0x7F` gives `NH = 7`, `NL = 15`". -/
theorem test_nibbles_of_7F : highNibble 0x7F#8 = 7#4 ∧ lowNibble 0x7F#8 = 15#4 := by decide
theorem test_table_word_nib7 : decodeTableWord 8 7 = some .nib7 := by decide
theorem test_table_word_header : decodeTableWord 8 0x5A = some (.hdrPvHi 0x5A#8) := by decide
theorem test_fetch_word_nibble :
    step (State.reset.withFetchWord 8 11) = exec .nibB { State.reset with phase := .pay } := rfl
theorem test_fetch_word_header :
    step (State.reset.withFetchWord 8 0x5A) = exec (.hdrPvHi 0x5A#8) (acceptBeat 0x5A#8 false [] State.reset) := rfl

/-! ### The assembler notation (R64) -/

/-- R64: "`SEED 256, 0 ; NIB_7 NIB_F` assembles to the four bytes `01 00 00 7F`". -/
theorem test_assemble_example : assembleFrame 256 0 [.nib7, .nibF] = some [0x01#8, 0x00#8, 0x00#8, 0x7F#8] := by
  decide
/-- 95_test_vectors.md section 2.1: `FB 2E 1E` is the seed -1234, 30. -/
theorem test_assemble_seed : assembleSeed (-1234) 30 = some [0xFB#8, 0x2E#8, 0x1E#8] := by decide
theorem test_plus_minus : plusNibble 0 = .nib0 ∧ minusNibble 0 = .nib8 ∧ minusNibble 7 = .nibF := by decide
theorem test_assemble_odd : assembleFrame 0 0 [.nib7] = none := by decide

/-! ### The header operations (R70 to R72, 95_test_vectors.md section 2.1 and P5) -/

theorem test_hdr_hi : seenHeader (step (beatState .h0 0x01#8 false)) = some (.h1, 0, 0, 1, []) := by decide
theorem test_hdr_hi_short :
    seenHeader (step (beatState .h0 0x12#8 true)) = some (.h0, 0, 0, 0, [.frameError .shortFrame]) := by decide
theorem test_hdr_lo_seed : seenHeader (exec (.hdrPvLo 0x2E#8) { State.reset with hdrHi := 0xFB#8 }) =
    some (.h2, -1234, 0, 0xFB, []) := by decide
theorem test_hdr_lo_big_endian : seenHeader (exec (.hdrPvLo 0x01#8) State.reset) = some (.h2, 1, 0, 0, []) := by
  decide
theorem test_hdr_index_89 :
    seenHeader (step (beatState .h2 0x59#8 false)) = some (.drop, 0, 0, 0, [.frameError .badSeedIndex]) := by decide
theorem test_hdr_index_88_last :
    seenHeader (step (beatState .h2 0x58#8 true)) = some (.h0, 0, 88, 0, [.frameDone]) := by decide
theorem test_drop_last : seenHeader (step (beatState .drop 0xBB#8 true)) = some (.h0, 0, 0, 0, []) := by decide

/-! ### The nibble operations: the example and one more vector of each rule R91 to R106, and vectors of
95_test_vectors.md section 2.3 -/

theorem test_nib0 : seen (exec .nib0 (nibState 100 44)) = some (161, 43, [.sample 161]) := by decide
theorem test_nib0_N20 : seen (exec .nib0 (nibState 32767 2)) = some (32768, 1, [.sample 32767]) := by decide
theorem test_nib1 : seen (exec .nib1 (nibState 100 44)) = some (284, 43, [.sample 284]) := by decide
theorem test_nib1_N19 : seen (exec .nib1 (nibState 32767 0)) = some (32768, 0, [.sample 32767]) := by decide
theorem test_nib2 : seen (exec .nib2 (nibState 100 44)) = some (408, 43, [.sample 408]) := by decide
theorem test_nib2_corner : seen (exec .nib2 (nibState 32767 0)) = some (32770, 0, [.sample 32767]) := by decide
theorem test_nib3 : seen (exec .nib3 (nibState 100 44)) = some (531, 43, [.sample 531]) := by decide
theorem test_nib3_corner : seen (exec .nib3 (nibState 32767 0)) = some (32771, 0, [.sample 32767]) := by decide
theorem test_nib4 : seen (exec .nib4 (nibState 100 44)) = some (655, 46, [.sample 655]) := by decide
theorem test_nib4_N12 : seen (exec .nib4 (nibState 0 87)) = some (33518, 88, [.sample 32767]) := by decide
theorem test_nib5 : seen (exec .nib5 (nibState 100 44)) = some (778, 48, [.sample 778]) := by decide
theorem test_nib5_corner : seen (exec .nib5 (nibState 32000 88)) = some (77053, 88, [.sample 32767]) := by decide
theorem test_nib6 : seen (exec .nib6 (nibState 100 44)) = some (902, 50, [.sample 902]) := by decide
theorem test_nib6_corner : seen (exec .nib6 (nibState 32000 88)) = some (85245, 88, [.sample 32767]) := by decide
theorem test_nib7 : seen (exec .nib7 (nibState 100 44)) = some (1025, 52, [.sample 1025]) := by decide
/-- N4: `diff` uses the step of the index before the operation. -/
theorem test_nib7_N4 : seen (exec .nib7 (nibState 0 0)) = some (11, 8, [.sample 11]) := by decide
theorem test_nib8 : seen (exec .nib8 (nibState 100 44)) = some (39, 43, [.sample 39]) := by decide
theorem test_nib8_N23 : seen (exec .nib8 (nibState (-40000) 30)) = some (-40016, 29, [.sample (-32768)]) := by decide
theorem test_nib9 : seen (exec .nib9 (nibState 100 44)) = some (-84, 43, [.sample (-84)]) := by decide
theorem test_nib9_N10 : seen (exec .nib9 (nibState (-1) 20)) = some (-19, 19, [.sample (-19)]) := by decide
theorem test_nibA : seen (exec .nibA (nibState 100 44)) = some (-208, 43, [.sample (-208)]) := by decide
theorem test_nibA_corner : seen (exec .nibA (nibState (-32768) 0)) = some (-32771, 0, [.sample (-32768)]) := by decide
theorem test_nibB : seen (exec .nibB (nibState 100 44)) = some (-331, 43, [.sample (-331)]) := by decide
theorem test_nibB_corner : seen (exec .nibB (nibState (-32768) 0)) = some (-32772, 0, [.sample (-32768)]) := by decide
theorem test_nibC : seen (exec .nibC (nibState 100 44)) = some (-455, 46, [.sample (-455)]) := by decide
theorem test_nibC_corner : seen (exec .nibC (nibState (-32000) 88)) = some (-68862, 88, [.sample (-32768)]) := by decide
theorem test_nibD : seen (exec .nibD (nibState 100 44)) = some (-578, 48, [.sample (-578)]) := by decide
theorem test_nibD_corner : seen (exec .nibD (nibState (-32000) 88)) = some (-77053, 88, [.sample (-32768)]) := by decide
theorem test_nibE : seen (exec .nibE (nibState 100 44)) = some (-702, 50, [.sample (-702)]) := by decide
theorem test_nibE_corner : seen (exec .nibE (nibState (-32000) 88)) = some (-85245, 88, [.sample (-32768)]) := by decide
theorem test_nibF : seen (exec .nibF (nibState 100 44)) = some (-825, 52, [.sample (-825)]) := by decide
/-- N18: the predictor returns from outside the 16-bit range exactly. -/
theorem test_nibF_N18 : seen (exec .nibF (nibState 93436 88)) = some (32000, 88, [.sample 32000]) := by decide
theorem test_index_89_faults : exec .nib0 (nibState 0 89) = .fault .stepRomRange := rfl
/-- 95_test_vectors.md section 2.2, the row of step 7. -/
theorem test_diff_step7 :
    [0#4, 1#4, 2#4, 3#4, 4#4, 5#4, 6#4, 7#4].map (reconstructDiff 7) = [0, 1, 3, 4, 7, 8, 10, 11] := by decide

/-! ### Whole frames (95_test_vectors.md P1 and section 2.6) -/

theorem test_frame_P1 : decodeFrame defaultRom [0x01#8, 0x00#8, 0x00#8, 0x7F#8, 0x4C#8] = .ok [267, 237, 275, 229] := by
  decide +kernel
theorem test_frame_bad_seed : decodeFrame defaultRom [0x00#8, 0x00#8, 0xFF#8, 0x11#8] = .error .badSeedIndex := by
  decide +kernel
theorem test_frame_header_only : decodeFrame defaultRom [0x12#8, 0x34#8, 0x58#8] = .ok [] := by decide
theorem test_frame_beats : frameBeats [0x12#8, 0x34#8] = [.beat 0x12#8 false, .beat 0x34#8 true] := by decide
/-- Section 4: 100 bytes, then 31, hand over one frame of 131 bytes. -/
theorem test_feed_131 : ((Accumulator.feed .drainAll (List.replicate 31 0#8) ⟨List.replicate 100 0#8⟩).1.map
    List.length, (Accumulator.feed .drainAll (List.replicate 31 0#8) ⟨List.replicate 100 0#8⟩).2.buffer.length) =
      (some 131, 0) := by decide +kernel
/-- Section 4, under `strict_131`: 200 bytes hand over 131 and keep 69. -/
theorem test_feed_strict : ((Accumulator.feed .strict131 (List.replicate 200 0#8) ⟨[]⟩).1.map
    List.length, (Accumulator.feed .strict131 (List.replicate 200 0#8) ⟨[]⟩).2.buffer.length) = (some 131, 69) := by
  decide +kernel

/-! ### Witnesses: a concrete case that meets the hypotheses of each statement -/

/-- The default tables are legal. -/
theorem defaultRom_legal : defaultRom.Legal := by decide

/-- A state in PAY with a second nibble waiting and the last beat in progress. -/
def lowState : State := { nibState 100 44 with frameBytes := 4, pending := some 0x7F#8, beatLast := true }

theorem witness_ResetInputAbandonsFrame_taken :
    ({ nibState 13 7 with input := [.reset] } : State).pending = none ∧
      ({ nibState 13 7 with input := [.reset] } : State).input = .reset :: [] := ⟨rfl, rfl⟩
theorem witness_ResetInputAbandonsFrame_between :
    ∃ t, ({ lowState with input := [.reset] } : State).pending = some 0x7F#8 ∧
      step { lowState with input := [.reset] } = .next t := ⟨_, rfl, rfl⟩
theorem witness_NoBeatNoChange : (nibState 13 7).pending = none ∧ (nibState 13 7).input = [] := ⟨rfl, rfl⟩
theorem witness_OverlongFrameRefused :
    ({ beatState .pay 0#8 true with frameBytes := 17480 } : State).pending = none ∧
      ({ beatState .pay 0#8 true with frameBytes := 17480 } : State).input = .beat 0#8 true :: [] ∧
      ({ beatState .pay 0#8 true with frameBytes := 17480 } : State).phase ≠ .h0 ∧
      17480 ≤ ({ beatState .pay 0#8 true with frameBytes := 17480 } : State).frameBytes := by decide
theorem witness_HdrPvHiHoldsByte :
    State.reset.beatLast = false ∧ ({ State.reset with beatLast := true } : State).beatLast = true := by decide
theorem witness_HdrPvLoWritesSeed :
    ({ State.reset with phase := .h1, hdrHi := 0x80#8 } : State).beatLast = false ∧
      ({ State.reset with phase := .h1, beatLast := true } : State).beatLast = true := by decide
theorem witness_HdrIndexChecksSeed :
    (88#8).toNat ≤ 88 ∧ 88 < (89#8).toNat ∧ State.reset.beatLast = false ∧
      ({ State.reset with beatLast := true } : State).beatLast = true ∧
      (88 : Fin 89).val = (88#8).toNat ∧ 1 ≤ (State.reset.rom.stepRom[(88 : Fin 89)]).toNat := by decide
theorem witness_HeaderSeedsState :
    (88#8).toNat < 89 ∧ State.reset.phase = .h0 ∧ State.reset.pending = none ∧ State.reset.rom.Legal ∧
      ({ State.reset with input := [.beat 0x7F#8 false, .beat 0xFF#8 false, .beat 88#8 false] } : State).input =
        .beat 0x7F#8 false :: .beat 0xFF#8 false :: .beat 88#8 false :: [] :=
  ⟨by decide, rfl, rfl, defaultRom_legal, rfl⟩
theorem witness_NibbleOperationResult :
    (nibState 32767 88).index.toNat = (88 : Fin 89).val ∧
      1 ≤ ((nibState 32767 88).rom.stepRom[(88 : Fin 89)]).toNat ∧
      (32767 : Int) = ((nibState 32767 88).rom.stepRom[(88 : Fin 89)]).toNat ∧
      (61436 : Int) = 32767 / 8 + (if (7#4).toNat / 4 % 2 = 1 then 32767 else 0)
        + (if (7#4).toNat / 2 % 2 = 1 then 32767 / 2 else 0) + (if (7#4).toNat % 2 = 1 then 32767 / 4 else 0) ∧
      (94203 : Int) = (if (7#4).toNat < 8 then (nibState 32767 88).pv.toInt + 61436
        else (nibState 32767 88).pv.toInt - 61436) ∧
      (-2147483648 : Int) ≤ 94203 ∧ (94203 : Int) ≤ 2147483647 := by decide
/-- The hypotheses of MovesPvBy, for PositiveNibbleCodes. -/
theorem witness_PositiveNibbleCodes :
    (nibState 100 44).index.toNat = (44 : Fin 89).val ∧ ((nibState 100 44).rom.stepRom[(44 : Fin 89)]).toNat = 494 ∧
      (-2147483648 : Int) ≤ (nibState 100 44).pv.toInt + (494 / 8 + 494 + 494 / 2 + 494 / 4) ∧
      (nibState 100 44).pv.toInt + (494 / 8 + 494 + 494 / 2 + 494 / 4) ≤ 2147483647 := by decide
/-- The hypotheses of MovesPvBy, for NegativeNibbleCodes. -/
theorem witness_NegativeNibbleCodes :
    (nibState 100 44).index.toNat = (44 : Fin 89).val ∧ ((nibState 100 44).rom.stepRom[(44 : Fin 89)]).toNat = 494 ∧
      (-2147483648 : Int) ≤ (nibState 100 44).pv.toInt + -(494 / 8 + 494 + 494 / 2 + 494 / 4) ∧
      (nibState 100 44).pv.toInt + -(494 / 8 + 494 + 494 / 2 + 494 / 4) ≤ 2147483647 := by decide
theorem witness_NibbleOperationStops_range : 88 < (nibState 0 89).index.toNat := by decide
theorem witness_NibbleOperationStops_illegal :
    ∃ s : State, s.index.toNat = (0 : Fin 89).val ∧ (s.rom.stepRom[(0 : Fin 89)]).toNat = 0 :=
  ⟨{ nibState 0 0 with rom := { defaultRom with stepRom := Vector.replicate 89 0#15 } }, by decide⟩
theorem witness_NibbleOperationStops_overflow :
    (nibState 2147483647 44).index.toNat = (44 : Fin 89).val ∧
      1 ≤ ((nibState 2147483647 44).rom.stepRom[(44 : Fin 89)]).toNat ∧
      2147483647 < applySign (nibState 2147483647 44).pv.toInt
        (reconstructDiff ((nibState 2147483647 44).rom.stepRom[(44 : Fin 89)]).toNat 0#4) 0#4 := by decide
theorem witness_DiffLaws : 1 ≤ 1 ∧ magnitude 3#4 = 3 ∧ 4 ≤ magnitude 4#4 ∧ magnitude 15#4 = 7 ∧ 32767 ≤ 32767 := by
  decide
theorem witness_SampleClampedPvKept :
    ∃ t, (nibState 32767 88).index.toNat = (88 : Fin 89).val ∧ exec (ofNibble 7#4) (nibState 32767 88) = .next t :=
  ⟨_, by decide, rfl⟩
theorem witness_IndexClampSaturates : ∃ t, exec (ofNibble 0#4) (nibState 0 0) = .next t := ⟨_, rfl⟩
theorem witness_PredictorBound :
    (-32768 : Int) ≤ -32768 ∧ (-32768 : Int) ≤ 32767 ∧ ([15#4] : List Nibble).length ≤ 256 ∧
      ([15#4] : List Nibble).length ≤ 2 * (17480 - 3) := by decide
theorem witness_ZeroPayloadRamp : deltaAt defaultRom 0#4 ≤ 0 := by decide
theorem witness_OperationFrame :
    (∃ t, exec (.hdrIndex 89#8) State.reset = .next t) ∧ (∃ t, exec .nibC (nibState 100 44) = .next t) ∧
      (∀ v, Instr.nibC ≠ .hdrPvHi v) ∧ (∀ v, Instr.hdrIndex 89#8 ≠ .hdrPvLo v) ∧
      nibbleCode (.hdrIndex 89#8) = none ∧ nibbleCode (.hdrPvHi 1#8) = none ∧ (∀ v, Instr.hdrPvHi 1#8 ≠ .hdrIndex v) ∧
      nibbleCode .nibC ≠ none :=
  ⟨⟨_, rfl⟩, ⟨_, rfl⟩, by simp, by simp, rfl, rfl, by simp, by decide⟩
theorem witness_StreamsInOrder : ∃ t, step (beatState .pay 0x7F#8 true) = .next t := ⟨_, rfl⟩
theorem witness_StepRunsDecodedOperation_low :
    lowState.pending = some 0x7F#8 ∧ decode .payLow 0x7F#8 = .instr .nibF := by decide
theorem witness_StepRunsDecodedOperation_beat :
    (beatState .pay 0x7F#8 true).pending = none ∧ (beatState .pay 0x7F#8 true).input = .beat 0x7F#8 true :: [] ∧
      nextFrameBytes (beatState .pay 0x7F#8 true) ≤ 17480 ∧
      decode (beatState .pay 0x7F#8 true).phase.position 0x7F#8 = .instr .nib7 := by decide
theorem witness_PayloadBeatDecodesTwoNibbles :
    (beatState .pay 0x7F#8 true).phase = .pay ∧ (beatState .pay 0x7F#8 true).pending = none ∧
      (beatState .pay 0x7F#8 true).input = .beat 0x7F#8 true :: [] ∧ (beatState .pay 0x7F#8 true).frameBytes < 17480 ∧
      (beatState .pay 0x7F#8 true).rom.Legal ∧ (beatState .pay 0x7F#8 true).index.toNat = (0 : Fin 89).val ∧
      fits32 (nibbleStep defaultRom 0 0 7#4).pv = true ∧
      fits32 (nibbleStep defaultRom (nibbleStep defaultRom 0 0 7#4).pv (nibbleStep defaultRom 0 0 7#4).index 15#4).pv = true :=
  ⟨rfl, rfl, rfl, by decide +kernel, defaultRom_legal, by decide +kernel, by decide +kernel, by decide +kernel⟩
theorem witness_DropDiscards_stays :
    (beatState .drop 0xAA#8 false).phase = .drop ∧ (beatState .drop 0xAA#8 false).pending = none ∧
      (beatState .drop 0xAA#8 false).input = .beat 0xAA#8 false :: [] ∧
      (beatState .drop 0xAA#8 false).frameBytes < 17480 := by decide
theorem witness_DropDiscards_entered : ∃ t, step (beatState .h2 89#8 false) = .next t ∧ t.phase = .drop := ⟨_, rfl, rfl⟩
theorem witness_ErrorEntry :
    (∃ t, step (beatState .h1 0#8 true) = .next t ∧
      t.output = (beatState .h1 0#8 true).output ++ [.frameError .shortFrame]) ∧
    (∃ t, step (beatState .h2 89#8 false) = .next t ∧
      t.output = (beatState .h2 89#8 false).output ++ [.frameError .badSeedIndex] ∧ t.phase = .drop) :=
  ⟨⟨_, rfl, rfl⟩, ⟨_, rfl, rfl, rfl⟩⟩
theorem witness_LastBeatReturnsToH0 :
    (∃ t, (beatState .drop 0#8 true).pending = none ∧ (beatState .drop 0#8 true).input = .beat 0#8 true :: [] ∧
      (beatState .drop 0#8 true).phase ≠ .pay ∧ step (beatState .drop 0#8 true) = .next t) ∧
    (∃ t, (beatState .pay 0x7F#8 true).pending = none ∧
      (beatState .pay 0x7F#8 true).input = .beat 0x7F#8 true :: [] ∧ (beatState .pay 0x7F#8 true).phase = .pay ∧
      run 2 (beatState .pay 0x7F#8 true) = .next t) :=
  ⟨⟨_, rfl, rfl, by decide, rfl⟩, ⟨_, rfl, rfl, rfl, rfl⟩⟩

/-- A state in PAY, in mid-beat and with output, meets the invariant. -/
theorem lowState_invariant : Invariant { lowState with output := [.sample 267, .frameDone] } where
  rom_legal := defaultRom_legal
  pending_pay := fun _ => rfl
  bytes_h1 := by simp [lowState, nibState]
  bytes_h2 := by simp [lowState, nibState]
  bytes_pay := by simp [lowState, nibState, Config.headerBytes, Config.maxFrameBytes]
  bytes_drop := by simp [lowState, nibState]
  index_pay := by simp [lowState, nibState, Config.indexMax]
  pv_bound := by simp [lowState, nibState, nibblesDone, PvBound, Config.headerBytes]
  samples_ok := by simp [EventOk]

theorem witness_StepKeepsInvariant : ∃ t, Invariant { lowState with output := [.sample 267, .frameDone] } ∧
    step { lowState with output := [.sample 267, .frameDone] } = .next t := ⟨_, lowState_invariant, rfl⟩
theorem witness_InvariantNeverStops : Invariant { lowState with output := [.sample 267, .frameDone] } ∧
    HostKeepsLength { lowState with output := [.sample 267, .frameDone] } :=
  ⟨lowState_invariant, by intro h; cases h⟩
theorem witness_UnspecifiedValuesUnobservable :
    Agree (beatState .h0 1#8 false)
      { beatState .h0 1#8 false with pv := 5#32, index := 99#7, hdrHi := 7#8, frameBytes := 9 } := by
  refine ⟨rfl, rfl, rfl, rfl, rfl, ?_, ?_, ?_, ?_, ?_⟩ <;> simp [beatState, State.reset]
theorem witness_MachineAgreesWithDecode :
    State.reset.phase = .h0 ∧ State.reset.pending = none ∧ State.reset.rom.Legal ∧
      1 ≤ [0x01#8, 0x00#8, 0x00#8, 0x7F#8].length ∧ [0x01#8, 0x00#8, 0x00#8, 0x7F#8].length ≤ 17480 ∧
      (offerFrame [0x01#8, 0x00#8, 0x00#8, 0x7F#8] State.reset).input =
        frameBeats [0x01#8, 0x00#8, 0x00#8, 0x7F#8] ++ [] :=
  ⟨rfl, rfl, defaultRom_legal, by decide +kernel, by decide +kernel, rfl⟩
theorem witness_FramesAreIndependent :
    State.reset.phase = .h0 ∧ State.reset.pending = none ∧ State.reset.rom.Legal ∧
      (∀ f ∈ [[0x00#8, 0x10#8, 0x59#8, 0xAA#8], [0x12#8]], 1 ≤ f.length ∧ f.length ≤ 17480) ∧
      (offerFrame [0x12#8] (offerFrame [0x00#8, 0x10#8, 0x59#8, 0xAA#8] State.reset)).input =
        [[0x00#8, 0x10#8, 0x59#8, 0xAA#8], [0x12#8]].flatMap frameBeats ++ [] :=
  ⟨rfl, rfl, defaultRom_legal, by decide +kernel, by decide +kernel⟩
theorem witness_SampleCount :
    ∃ out, decodeFrame defaultRom (0#8 :: 0#8 :: 0#8 :: List.replicate 128 0#8) = .ok out ∧
      (0#8 :: 0#8 :: 0#8 :: List.replicate 128 0#8).length = 131 :=
  ⟨decodeNibbles defaultRom (seedPv 0#8 0#8) ⟨(0#8).toNat, by decide⟩ (payloadNibbles (List.replicate 128 0#8)),
    by simp [decodeFrame, Config.maxFrameBytes], by simp⟩
theorem witness_NibbleOrder :
    decodeFrame defaultRom [0x01#8, 0x00#8, 0x00#8, 0x7F#8, 0x4C#8] = .ok [267, 237, 275, 229] := by
  decide +kernel
theorem witness_SamplesSaturate :
    decodeFrame defaultRom [0x01#8, 0x00#8, 0x00#8, 0x7F#8] = .ok [267, 237] ∧ (267 : Int) ∈ [(267 : Int), 237] := by
  decide +kernel
/-- Each clause at its boundary: 2 bytes and 3, and a byte 2 of 88 and 89 (60_exceptions.md R151, R152). -/
theorem witness_FrameErrorsExactly :
    (([0x12#8, 0x34#8] : List Byte).length ≤ 17480 ∧ ([0x12#8, 0x34#8] : List Byte).length < 3 ∧
      decodeFrame defaultRom [0x12#8, 0x34#8] = .error .shortFrame) ∧
    (([0x12#8, 0x34#8, 0x58#8] : List Byte).length ≤ 17480 ∧
      decodeFrame defaultRom [0x12#8, 0x34#8, 0x58#8] = .ok []) ∧
    (([0x12#8, 0x34#8, 0x59#8] : List Byte).length ≤ 17480 ∧
      decodeFrame defaultRom [0x12#8, 0x34#8, 0x59#8] = .error .badSeedIndex) := by decide
theorem witness_OneIllegalEncodingClass :
    decode .h2 89#8 = .instr (.hdrIndex 89#8) ∧ nibbleCode (.hdrIndex 89#8) = none ∧
      (Instr.hdrIndex 89#8).wellFormed = false ∧ decode .payHigh 0xF0#8 = .instr .nibF ∧ nibbleCode .nibF ≠ none := by
  decide
theorem witness_EncodeThenDecode : nibbleCode .nibA = some 0b1010#4 := by decide
theorem witness_FramesAssembleAndDecode :
    (88#8).toNat ≤ 88 ∧
      (∀ i ∈ [Instr.hdrPvHi 1#8, .hdrPvLo 0#8, .hdrIndex 88#8, .nib7, .nibF], i.wellFormed = true) ∧
      assembleOps [.hdrPvHi 1#8, .hdrPvLo 0#8, .hdrIndex 88#8, .nib7, .nibF] = some [1#8, 0#8, 88#8, 0x7F#8] := by
  decide +kernel
theorem witness_SeedAssembles :
    (-32768 : Int) ≤ -32768 ∧ (-32768 : Int) ≤ 32767 ∧ 255 ≤ 255 ∧ (32767 : Int) < 32768 := by decide
theorem witness_AccumulatorDrainsAll :
    131 ≤ ((⟨List.replicate 100 0#8⟩ : Accumulator).buffer ++ List.replicate 31 0#8).length ∧
      ((⟨List.replicate 100 0#8⟩ : Accumulator).buffer ++ List.replicate 30 0#8).length < 131 := by decide +kernel
theorem witness_AccumulatorWaitsFor131 :
    [List.replicate 100 0#8, List.replicate 30 0#8].flatten.length < 131 ∧
      ([List.replicate 100 0#8, List.replicate 30 0#8].flatten ++ [0#8]).length = 131 := by decide +kernel
theorem witness_AccumulatedFramesAreLong :
    List.replicate 131 0#8 ∈ (Accumulator.feedAll .strict131 [List.replicate 131 0#8] ⟨[]⟩).1 := by decide +kernel

end Sys2Proof.Machine
end

section
/-! The state's rules: the index sum of R23, the predictor bound of R22, what an operation leaves
alone (R10), and the values R24 and R25 leave unspecified, which no step lets out. -/

namespace Sys2Proof.Machine

/-! ### Values a step cannot observe (R24, R25, R127, R157) -/

/-! The named operations keep agreement. A register that is written is equal afterwards whatever it
held, so only a change of `PHASE` can ask for more than the states agreed on before. -/

theorem Agree.emit {s t : State} (h : Agree s t) (e : Event) : Agree (emit e s) (emit e t) :=
  { h with output := by simp [h.output] }

theorem Agree.setPv {s t : State} (h : Agree s t) (v : BitVec 32) : Agree (setPv v s) (setPv v t) :=
  { h with pv := fun _ => rfl }

theorem Agree.setIndex {s t : State} (h : Agree s t) (v : BitVec 7) :
    Agree (setIndex v s) (setIndex v t) :=
  { h with index := fun _ => rfl }

theorem Agree.setHdrHi {s t : State} (h : Agree s t) (v : Byte) : Agree (setHdrHi v s) (setHdrHi v t) :=
  { h with hdrHi := fun _ => rfl }

/-- A change of `PHASE` keeps agreement where the states are equal in what the new phase reads. -/
theorem Agree.setPhase {s t : State} (h : Agree s t) {p : Phase} (hh : p = .h1 → s.hdrHi = t.hdrHi)
    (hp : p = .h2 ∨ p = .pay → s.pv = t.pv) (hi : p = .pay → s.index = t.index)
    (hf : p ≠ .h0 → s.frameBytes = t.frameBytes) : Agree (setPhase p s) (setPhase p t) where
  phase := rfl
  rom := h.rom
  input := h.input
  output := h.output
  pending := h.pending
  hdrHi := hh
  pv
    | .inl h2 => hp (.inl h2)
    | .inr (.inl pay) => hp (.inr pay)
    | .inr (.inr waiting) => h.pv (.inr (.inr waiting))
  index
    | .inl pay => hi pay
    | .inr waiting => h.index (.inr waiting)
  beatLast := h.beatLast
  frameBytes := hf

theorem Agree.writeNibble {s t : State} (h : Agree s t) (r : NibbleResult) :
    Agree (writeNibble r s) (writeNibble r t) :=
  ((h.setPv _).setIndex _).emit _

theorem Agree.endFrame {s t : State} (h : Agree s t) : Agree (endFrame s) (endFrame t) :=
  (h.emit _).setPhase nofun nofun nofun fun hne => absurd rfl hne

/-- What follows an operation in its beat, the end of the frame if any, is the same in both (R129). -/
theorem Agree.afterOp {s t : State} (h : Agree s t) (hb : s.beatLast = t.beatLast) (pos : Position) :
    Agree (afterOp pos s) (afterOp pos t) := by
  cases pos with
  | payLow =>
    simp only [Machine.afterOp, ← hb]
    cases s.beatLast with
    | true => exact h.endFrame
    | false => exact h
  | h0 | h1 | h2 | payHigh | drop => exact h

/-- A second nibble that is taken is no longer waiting, so less has to be equal. -/
theorem Agree.takePending {s t : State} (h : Agree s t) :
    Agree { s with pending := none } { t with pending := none } :=
  { h with
    pending := rfl
    pv := fun reads => h.pv (reads.imp_right (.imp_right nofun))
    index := fun reads => h.index (reads.imp_right nofun)
    beatLast := nofun }

/-- After the reset input the three registers are unspecified, and in H0 nothing reads them (R25). -/
theorem Agree.takeReset {s t : State} (h : Agree s t) (hs : s.pending = none) (rest : List PortItem) :
    Agree (takeReset { s with input := rest }) (takeReset { t with input := rest }) where
  phase := rfl
  rom := h.rom
  input := rfl
  output := h.output
  pending := h.pending
  hdrHi := nofun
  pv := by simp [hs]
  index := by simp [hs]
  beatLast := by simp [hs]
  frameBytes hne := absurd rfl hne

/-- The byte count is read outside H0 only. -/
theorem Agree.nextFrameBytes_eq {s t : State} (h : Agree s t) : nextFrameBytes s = nextFrameBytes t := by
  have hf := h.frameBytes
  unfold nextFrameBytes
  rw [← h.phase]
  cases hp : s.phase with
  | h0 => rfl
  | h1 | h2 | pay | drop => simp only [hf (by simp [hp])]

/-- Two states that agree and are in the middle of the same beat: its `last` flag and the byte count
of its frame are equal too. -/
structure AgreeInBeat (s t : State) : Prop where
  agree : Agree s t
  beatLast : s.beatLast = t.beatLast
  frameBytes : s.frameBytes = t.frameBytes

/-- Taking a beat leaves a nibble waiting only in PAY. -/
theorem pay_of_acceptBeat_pending {v : Byte} {last : Bool} {rest : List PortItem} {s : State}
    (waiting : (acceptBeat v last rest s).pending.isSome) : s.phase = .pay := by
  by_contra notPay
  simp [notPay] at waiting

/-- The same beat taken by two states that agree. -/
theorem Agree.acceptBeat {s t : State} (h : Agree s t) (v : Byte) (last : Bool) (rest : List PortItem) :
    AgreeInBeat (acceptBeat v last rest s) (acceptBeat v last rest t) where
  agree :=
    { h with
      input := rfl
      pending := by simp [h.phase]
      pv := fun
        | .inl h2 => h.pv (.inl h2)
        | .inr (.inl pay) => h.pv (.inr (.inl pay))
        | .inr (.inr waiting) => h.pv (.inr (.inl (pay_of_acceptBeat_pending waiting)))
      index := fun
        | .inl pay => h.index (.inl pay)
        | .inr waiting => h.index (.inl (pay_of_acceptBeat_pending waiting))
      beatLast := fun _ => rfl
      frameBytes := fun _ => h.nextFrameBytes_eq }
  beatLast := rfl
  frameBytes := h.nextFrameBytes_eq

/-- Leaving a frame in error, at once or through DROP: no register is read there (R157, R160). -/
theorem AgreeInBeat.discardByte {s t : State} (h : AgreeInBeat s t) :
    Agree (discardByte s) (discardByte t) := by
  unfold Machine.discardByte
  rw [← h.beatLast]
  cases s.beatLast <;> exact h.agree.setPhase nofun nofun nofun fun _ => h.frameBytes

theorem AgreeInBeat.raiseMalformed {s t : State} (h : AgreeInBeat s t) (c : Cause) :
    Agree (raiseMalformed c s) (raiseMalformed c t) :=
  AgreeInBeat.discardByte
    { agree := h.agree.emit (.frameError c), beatLast := h.beatLast, frameBytes := h.frameBytes }

/-! The operations: each stops alike on two agreeing states or leaves agreeing states. -/

theorem AgreeInBeat.execHdrPvHi {s t : State} (h : AgreeInBeat s t) (v : Byte) :
    OutcomesAgree (execHdrPvHi v s) (execHdrPvHi v t) := by
  unfold Machine.execHdrPvHi
  rw [← h.beatLast]
  cases s.beatLast with
  | true => exact h.raiseMalformed _
  | false => exact (h.agree.setHdrHi v).setPhase (fun _ => rfl) nofun nofun fun _ => h.frameBytes

theorem AgreeInBeat.execHdrPvLo {s t : State} (h : AgreeInBeat s t) (hh : s.hdrHi = t.hdrHi) (v : Byte) :
    OutcomesAgree (execHdrPvLo v s) (execHdrPvLo v t) := by
  unfold Machine.execHdrPvLo
  rw [← h.beatLast, ← hh]
  cases s.beatLast with
  | true => exact h.raiseMalformed _
  | false => exact (h.agree.setPv _).setPhase nofun (fun _ => rfl) nofun fun _ => h.frameBytes

theorem AgreeInBeat.execHdrIndex {s t : State} (h : AgreeInBeat s t) (hp : s.pv = t.pv) (v : Byte) :
    OutcomesAgree (execHdrIndex v s) (execHdrIndex v t) := by
  unfold Machine.execHdrIndex
  rw [← h.beatLast]
  split
  · exact h.raiseMalformed _
  · cases s.beatLast with
    | true => exact (h.agree.setIndex _).endFrame
    | false =>
      exact (h.agree.setIndex _).setPhase nofun (fun _ => hp) (fun _ => rfl) fun _ => h.frameBytes

/-- A nibble operation followed by the same state change: what the operation reads must be equal
(`nibbleOp_congr`), and the change must keep agreement after the operation's writes. -/
theorem outcomesAgree_nibbleOp {s t : State} (n : Nibble) {f : State → State} (hi : s.index = t.index)
    (hp : s.pv = t.pv) (hr : s.rom = t.rom)
    (hf : ∀ r, Agree (f (writeNibble r s)) (f (writeNibble r t))) :
    OutcomesAgree (mapNext f (nibbleOp n s)) (mapNext f (nibbleOp n t)) := by
  rcases nibbleOp_congr n hi hp hr with ⟨r, hs, ht⟩ | ⟨r, hs, ht⟩ | ⟨r, hs, ht⟩ <;> rw [hs, ht]
  · exact hf r
  · rfl
  · rfl

theorem AgreeInBeat.nibbleOp {s t : State} (h : AgreeInBeat s t) (hi : s.index = t.index) (hp : s.pv = t.pv)
    (n : Nibble) : OutcomesAgree (nibbleOp n s) (nibbleOp n t) := by
  simpa only [mapNext_id] using
    outcomesAgree_nibbleOp n (f := fun u => u) hi hp h.agree.rom h.agree.writeNibble

/-- The step that decodes a second nibble (R129). -/
theorem Agree.step_low {s t : State} (h : Agree s t) {v : Byte} (hs : s.pending = some v) :
    OutcomesAgree (step s) (step t) := by
  have waiting : s.pending.isSome := by simp [hs]
  rw [Machine.step_low hs, Machine.step_low (h.pending ▸ hs)]
  exact outcomesAgree_nibbleOp _ (h.index (.inr waiting)) (h.pv (.inr (.inr waiting))) h.rom fun r =>
    (h.takePending.writeNibble r).afterOp (h.beatLast waiting) .payLow

/-- The step that takes a beat, by phase (R126 to R130). -/
theorem Agree.runByte {s t : State} (h : Agree s t) (v : Byte) (last : Bool) (rest : List PortItem) :
    OutcomesAgree (runByte s.phase.position v (Machine.acceptBeat v last rest s))
      (runByte t.phase.position v (Machine.acceptBeat v last rest t)) := by
  have hb := h.acceptBeat v last rest
  rw [← h.phase]
  cases hp : s.phase with
  | h0 => simpa only [Phase.position, runByte_h0] using hb.execHdrPvHi v
  | h1 => simpa only [Phase.position, runByte_h1] using hb.execHdrPvLo (h.hdrHi hp) v
  | h2 => simpa only [Phase.position, runByte_h2] using hb.execHdrIndex (h.pv (.inl hp)) v
  | pay =>
    simpa only [Phase.position, runByte_payHigh] using hb.nibbleOp (h.index (.inl hp)) (h.pv (.inr (.inl hp))) _
  | drop => exact hb.discardByte

/-- Settles O29: a waiting nibble, a wait, a reset and a beat each read only what agreeing states have
in common. -/
theorem unspecifiedValuesUnobservable : Obligations.UnspecifiedValuesUnobservable := by
  intro s t h
  cases hs : s.pending with
  | some v => exact h.step_low hs
  | none =>
    have ht : t.pending = none := h.pending ▸ hs
    have hin : t.input = s.input := h.input.symm
    cases hi : s.input with
    | nil => rw [step_wait hs hi, step_wait ht (hin.trans hi)]; exact h
    | cons item rest =>
      cases item with
      | reset => rw [step_reset hs hi, step_reset ht (hin.trans hi)]; exact h.takeReset hs rest
      | beat v last =>
        by_cases hl : nextFrameBytes s ≤ Config.maxFrameBytes
        · rw [step_beat hs hi hl, step_beat ht (hin.trans hi) (h.nextFrameBytes_eq ▸ hl)]
          exact h.runByte v last rest
        · have hl : Config.maxFrameBytes < nextFrameBytes s := Nat.lt_of_not_le hl
          rw [step_tooLong hs hi hl, step_tooLong ht (hin.trans hi) (h.nextFrameBytes_eq ▸ hl)]
          rfl

/-! ### The predictor bound (R22) -/

/-- Every nibble's `diff` has the term `step >> 3` (R84). -/
theorem div8_le_reconstructDiff (step : Nat) (n : Nibble) : step / 8 ≤ reconstructDiff step n := by
  rw [reconstructDiff_eq]
  omega

/-- The bound of R22 along a run of nibbles. -/
theorem PvBound_finalPv (rom : Rom) (ns : List Nibble) :
    ∀ {k : Nat} {pv : Int} (idx : Fin 89), PvBound k pv → PvBound (k + ns.length) (finalPv rom pv idx ns) := by
  induction ns with
  | nil => exact fun _ h => h
  | cons n ns ih =>
    intro k pv idx h
    have hn : PvBound (k + 1) (nibbleStep rom pv idx n).pv := PvBound_nibbleStep h rom idx n
    simpa only [finalPv, List.length_cons, Nat.add_assoc, Nat.add_comm 1] using ih _ hn

/-- Settles O17: the bound after each nibble by induction, then its values at 256 and 34954 nibbles. -/
theorem predictorBound : Obligations.PredictorBound := by
  refine ⟨fun rom idx n => ⟨div8_le_reconstructDiff _ n, reconstructDiff_le _ n, maxDiff_le (stepAt_le rom idx)⟩, ?_⟩
  intro rom pv idx ns hlo hhi
  have seed : PvBound 0 pv := by unfold PvBound; omega
  have bound := PvBound_finalPv rom ns idx seed
  rw [Nat.zero_add] at bound
  obtain ⟨lower, upper⟩ := bound
  refine ⟨lower, upper, fun hk => ?_, fun hk => ?_⟩
  · omega
  · omega

/-! ### What an operation leaves alone (R10, R35, R89) -/

/-- What no operation changes: the tables, the input, the beat in progress and the counters; and the
output gets at most one event. -/
structure OpFrame (s t : State) : Prop where
  rom : t.rom = s.rom
  input : t.input = s.input
  pending : t.pending = s.pending
  beatLast : t.beatLast = s.beatLast
  frameBytes : t.frameBytes = s.frameBytes
  freeCount : t.freeCount = s.freeCount
  output : t.output = s.output ∨ ∃ e, t.output = s.output ++ [e]

theorem OpFrame.events {s t : State} (h : OpFrame s t) :
    ∃ events, t.output = s.output ++ events ∧ events.length ≤ 1 := by
  rcases h.output with ho | ⟨e, ho⟩
  · exact ⟨[], by simp [ho]⟩
  · exact ⟨[e], by simp [ho]⟩

theorem execHdrPvHi_frame {v : Byte} {s t : State} (h : execHdrPvHi v s = .next t) :
    OpFrame s t ∧ t.pv = s.pv ∧ t.index = s.index := by
  rcases execHdrPvHi_cases h with ⟨-, rfl⟩ | ⟨-, rfl⟩
  · exact ⟨by constructor <;> simp, rfl, rfl⟩
  · exact ⟨by constructor <;> simp, rfl, rfl⟩

theorem execHdrPvLo_frame {v : Byte} {s t : State} (h : execHdrPvLo v s = .next t) :
    OpFrame s t ∧ t.hdrHi = s.hdrHi ∧ t.index = s.index := by
  rcases execHdrPvLo_cases h with ⟨-, rfl⟩ | ⟨-, rfl⟩
  · exact ⟨by constructor <;> simp, rfl, rfl⟩
  · exact ⟨by constructor <;> simp, rfl, rfl⟩

theorem execHdrIndex_frame {v : Byte} {s t : State} (h : execHdrIndex v s = .next t) :
    OpFrame s t ∧ t.hdrHi = s.hdrHi ∧ t.pv = s.pv := by
  rcases execHdrIndex_cases h with ⟨-, rfl⟩ | ⟨-, -, rfl⟩ | ⟨-, -, rfl⟩
  · exact ⟨by constructor <;> simp, rfl, rfl⟩
  · exact ⟨by constructor <;> simp, rfl, rfl⟩
  · exact ⟨by constructor <;> simp, rfl, rfl⟩

theorem nibbleOp_frame {n : Nibble} {s t : State} (h : nibbleOp n s = .next t) :
    OpFrame s t ∧ t.hdrHi = s.hdrHi ∧ t.phase = s.phase := by
  obtain ⟨i, -, -, -, rfl⟩ := nibbleOp_inv h
  exact ⟨by constructor <;> simp, rfl, rfl⟩

/-- An operation is one of the three header operations or the operation of a nibble (R60). -/
theorem instr_cases (i : Instr) :
    (∃ v, i = .hdrPvHi v) ∨ (∃ v, i = .hdrPvLo v) ∨ (∃ v, i = .hdrIndex v) ∨ ∃ n, i = ofNibble n := by
  cases hc : nibbleCode i with
  | some n => exact .inr (.inr (.inr ⟨n, eq_ofNibble hc⟩))
  | none => cases i <;> simp [nibbleCode] at hc ⊢

/-- Settles O19: the frame of each header operation and of the nibble operation, put together. -/
theorem operationFrame : Obligations.OperationFrame := by
  intro i s t h
  suffices hs : OpFrame s t ∧ ((∀ v, i ≠ .hdrPvHi v) → t.hdrHi = s.hdrHi) ∧
      ((∀ v, i ≠ .hdrPvLo v) → nibbleCode i = none → t.pv = s.pv) ∧
      ((∀ v, i ≠ .hdrIndex v) → nibbleCode i = none → t.index = s.index) ∧
      (nibbleCode i ≠ none → t.phase = s.phase) by
    obtain ⟨frame, registers⟩ := hs
    exact ⟨frame.rom, frame.input, frame.pending, frame.beatLast, frame.frameBytes, frame.freeCount,
      frame.events, registers⟩
  rcases instr_cases i with ⟨v, rfl⟩ | ⟨v, rfl⟩ | ⟨v, rfl⟩ | ⟨n, rfl⟩
  · obtain ⟨frame, hpv, hindex⟩ := execHdrPvHi_frame h
    exact ⟨frame, fun hne => absurd rfl (hne v), fun _ _ => hpv, fun _ _ => hindex, fun hne => absurd rfl hne⟩
  · obtain ⟨frame, hhdr, hindex⟩ := execHdrPvLo_frame h
    exact ⟨frame, fun _ => hhdr, fun hne => absurd rfl (hne v), fun _ _ => hindex, fun hne => absurd rfl hne⟩
  · obtain ⟨frame, hhdr, hpv⟩ := execHdrIndex_frame h
    exact ⟨frame, fun _ => hhdr, fun _ _ => hpv, fun hne => absurd rfl (hne v), fun hne => absurd rfl hne⟩
  · rw [exec_ofNibble] at h
    obtain ⟨frame, hhdr, hphase⟩ := nibbleOp_frame h
    have code := nibbleCode_ofNibble n
    exact ⟨frame, fun _ => hhdr, fun _ hc => by simp [code] at hc, fun _ hc => by simp [code] at hc,
      fun _ => hphase⟩

/-! ### The index sum (R23) -/

/-- A table delta is a signed byte (R33). -/
theorem deltaAt_range (rom : Rom) (n : Nibble) : -128 ≤ deltaAt rom n ∧ deltaAt rom n ≤ 127 := by
  have lower := BitVec.le_toInt (rom.indexRom[n.toNat]'n.isLt)
  have upper := BitVec.toInt_lt (x := rom.indexRom[n.toNat]'n.isLt)
  unfold deltaAt
  omega

/-- The deltas of R34 (PRESUMED, log entry 2). -/
theorem deltaAt_defaultRom_range (n : Nibble) : -1 ≤ deltaAt defaultRom n ∧ deltaAt defaultRom n ≤ 8 := by
  have key : ∀ m : Fin 16, -1 ≤ deltaAt defaultRom (BitVec.ofFin m) ∧ deltaAt defaultRom (BitVec.ofFin m) ≤ 8 := by
    decide
  exact key n.toFin

/-- Settles O16: an index of 0 to 88 plus a delta in its range. -/
theorem indexSumFitsNineBits : Obligations.IndexSumFitsNineBits := by
  refine ⟨fun rom idx n => ?_, fun idx n => ?_⟩
  · have := deltaAt_range rom n
    omega
  · have := deltaAt_defaultRom_range n
    omega

end Sys2Proof.Machine
end

section
/-! The tables, the streams and the payload order of spec/20_memory.md: a step keeps the tables and runs
along both streams in order (R35, R44, R45), and nibble `j` is half of payload byte `j div 2` (R39). -/

namespace Sys2Proof.Machine

/-! ### The tables and the streams (R35, R44, R45) -/

theorem discardByte_frame (s : State) : OpFrame s (discardByte s) := by constructor <;> simp

/-- A new beat's byte runs one operation, or is discarded, whatever the phase (R126 to R130). -/
theorem runByte_frame {p : Phase} {v : Byte} {s t : State} (h : runByte p.position v s = .next t) :
    OpFrame s t := by
  cases p with
  | h0 => exact (execHdrPvHi_frame ((runByte_h0 v s).symm.trans h)).1
  | h1 => exact (execHdrPvLo_frame ((runByte_h1 v s).symm.trans h)).1
  | h2 => exact (execHdrIndex_frame ((runByte_h2 v s).symm.trans h)).1
  | pay => exact (nibbleOp_frame ((runByte_payHigh v s).symm.trans h)).1
  | drop => injection h with h; exact h ▸ discardByte_frame s

/-- What follows the second nibble of a beat (R129) keeps the tables and the input, and appends at most
`FrameDone`. -/
theorem endOfBeat_streams (u : State) :
    (if u.beatLast then endFrame u else u).rom = u.rom ∧
    (if u.beatLast then endFrame u else u).input = u.input ∧
    ∃ events, (if u.beatLast then endFrame u else u).output = u.output ++ events := by
  cases u.beatLast with
  | true => exact ⟨rfl, rfl, [.frameDone], rfl⟩
  | false => exact ⟨rfl, rfl, [], by simp⟩

/-- Settles O20: a waiting nibble and a wait leave the input alone, a reset and a beat take its head. -/
theorem streamsInOrder : Obligations.StreamsInOrder := by
  intro s t h
  rcases step_cases h with ⟨v, u, -, hu, rfl⟩ | ⟨-, -, rfl⟩ | ⟨rest, -, hi, rfl⟩ | ⟨v, last, rest, hp, hi, hl, -⟩
  · obtain ⟨frame, -⟩ := nibbleOp_frame hu
    obtain ⟨sample, hsample, -⟩ := frame.events
    obtain ⟨hrom, hinput, done, hdone⟩ := endOfBeat_streams u
    exact ⟨hrom.trans frame.rom, .inl (hinput.trans frame.input), sample ++ done, by simp [hdone, hsample]⟩
  · exact ⟨rfl, .inl rfl, [], by simp⟩
  · exact ⟨rfl, .inr ⟨.reset, hi⟩, [], by simp⟩
  · rw [step_beat hp hi hl] at h
    have frame : OpFrame (acceptBeat v last rest s) t := runByte_frame h
    obtain ⟨events, hout, -⟩ := frame.events
    exact ⟨frame.rom, .inr ⟨.beat v last, by rw [hi, frame.input, acceptBeat_input]⟩, events, hout⟩

/-! ### The order of a payload's nibbles (R39) -/

theorem highNibble_eq (v : Byte) : highNibble v = BitVec.ofNat 4 (v.toNat / 16) := by
  apply BitVec.eq_of_toNat_eq
  simp [highNibble, Nat.shiftRight_eq_div_pow]

theorem lowNibble_eq (v : Byte) : lowNibble v = BitVec.ofNat 4 (v.toNat % 16) := by
  apply BitVec.eq_of_toNat_eq
  simp [lowNibble]

theorem getElem?_payloadNibbles (payload : List Byte) (j : Nat) :
    (payloadNibbles payload)[j]? =
      (payload[j / 2]?).map fun v => if j % 2 = 0 then highNibble v else lowNibble v := by
  induction payload generalizing j with
  | nil => rfl
  | cons b bs ih =>
    match j with
    | 0 => rfl
    | 1 => rfl
    | j + 2 => simp [payloadNibbles, ih]

/-- The sample of a nibble is the predictor of the run up to it, clamped (R86, R120). -/
theorem getElem?_decodeNibbles (rom : Rom) (ns : List Nibble) (pv : Int) (idx : Fin 89) (j : Nat) :
    (decodeNibbles rom pv idx ns)[j]? = (ns[j]?).map fun _ => sat16 (finalPv rom pv idx (ns.take (j + 1))) := by
  induction ns generalizing pv idx j with
  | nil => rfl
  | cons n ns ih =>
    cases j with
    | zero => rfl
    | succ j => simp [decodeNibbles, finalPv, ih]

/-- Byte `k` of the payload stands at frame offset `3 + k` (R36, R39). -/
theorem getElem?_frame_payload (b0 b1 b2 : Byte) (payload : List Byte) (k : Nat) :
    (b0 :: b1 :: b2 :: payload)[3 + k]? = payload[k]? := by
  rw [Nat.add_comm]; rfl

/-- Settles O35: both orders by induction over the list, then read at the payload's place in the frame. -/
theorem nibbleOrder : Obligations.NibbleOrder := by
  have nibble (payload : List Byte) (j : Nat) : (payloadNibbles payload)[j]? = (payload[j / 2]?).map fun v =>
      if j % 2 = 0 then BitVec.ofNat 4 (v.toNat / 16) else BitVec.ofNat 4 (v.toNat % 16) := by
    simp only [getElem?_payloadNibbles, highNibble_eq, lowNibble_eq]
  refine ⟨nibble, fun rom pv idx ns j => getElem?_decodeNibbles rom ns pv idx j, ?_⟩
  intro rom frame out h
  obtain ⟨b0, b1, b2, payload, hv, rfl, rfl⟩ := decodeFrame_ok h
  refine ⟨b0, b1, b2, payload, hv, rfl, fun j => ?_⟩
  rw [getElem?_frame_payload]
  refine ⟨nibble payload j, ?_⟩
  rw [getElem?_decodeNibbles, getElem?_payloadNibbles, Option.map_map]
  rfl

end Sys2Proof.Machine
end

section
/-! The encoding of spec/30_encoding.md: a frame's bytes and its operations carry the same information
(R62, R64), the one illegal encoding class (R61), the `SEED` line (R57, R64), and words of the
operation map (R59, R60). -/

namespace Sys2Proof.Machine

/-! ### Frames and their operations (R60, R62, R64) -/

/-- A payload byte is its two nibbles' operations, the high nibble's first (R55). -/
theorem payloadOps_cons (b : Byte) (bs : List Byte) :
    payloadOps (b :: bs) = ofNibble (highNibble b) :: ofNibble (lowNibble b) :: payloadOps bs := rfl

/-- A frame with a legal seed index is its three header operations and those of its payload. -/
theorem frameOps_legal (b0 b1 : Byte) {b2 : Byte} (payload : List Byte) (h : b2.toNat ≤ 88) :
    frameOps (b0 :: b1 :: b2 :: payload) =
      .hdrPvHi b0 :: .hdrPvLo b1 :: .hdrIndex b2 :: payloadOps payload := by
  simp [frameOps, decode, Decoded.instr?, h]

/-- A pair of nibble operations packs into one byte (R64). -/
theorem packNibbles_ofNibble (hi lo : Nibble) {ops : List Instr} {bytes : List Byte}
    (h : packNibbles ops = some bytes) :
    packNibbles (ofNibble hi :: ofNibble lo :: ops) = some (payloadByte hi lo :: bytes) := by
  simp [packNibbles, nibbleCode_ofNibble, h]

/-- Only nibble operations pack, and a pair of them makes the first byte (R64). -/
theorem packNibbles_inv {i j : Instr} {ops : List Instr} {bytes : List Byte}
    (h : packNibbles (i :: j :: ops) = some bytes) :
    ∃ hi lo rest, i = ofNibble hi ∧ j = ofNibble lo ∧ packNibbles ops = some rest ∧
      bytes = payloadByte hi lo :: rest := by
  rw [packNibbles] at h
  split at h
  · next hi lo rest hcode lcode hrest =>
    injection h with h
    exact ⟨hi, lo, rest, eq_ofNibble hcode, eq_ofNibble lcode, hrest, h.symm⟩
  · cases h

/-- Packing the operations of a payload gives the payload back. -/
theorem packNibbles_payloadOps (payload : List Byte) : packNibbles (payloadOps payload) = some payload := by
  induction payload with
  | nil => rfl
  | cons b bs ih => rw [payloadOps_cons, packNibbles_ofNibble _ _ ih, payloadByte_nibbles]

/-- The operations of a packed payload are those it was packed from. -/
theorem payloadOps_of_packNibbles :
    ∀ {ops : List Instr} {bytes : List Byte}, packNibbles ops = some bytes → payloadOps bytes = ops
  | [], _, rfl => rfl
  | [_], _, h => nomatch h
  | _ :: _ :: _, _, h => by
    obtain ⟨hi, lo, rest, rfl, rfl, hrest, rfl⟩ := packNibbles_inv h
    rw [payloadOps_cons, highNibble_payloadByte, lowNibble_payloadByte, payloadOps_of_packNibbles hrest]

/-- What assembles to a frame: three header operations, whose bytes are the header, and nibble operations
that pack into the payload (R64). -/
theorem assembleOps_inv {ops : List Instr} {frame : List Byte} (h : assembleOps ops = some frame) :
    ∃ b0 b1 b2 nibbles payload, ops = .hdrPvHi b0 :: .hdrPvLo b1 :: .hdrIndex b2 :: nibbles ∧
      packNibbles nibbles = some payload ∧ frame = b0 :: b1 :: b2 :: payload := by
  unfold assembleOps at h
  split at h
  · next b0 b1 b2 nibbles =>
    obtain ⟨payload, hp, rfl⟩ := Option.map_eq_some_iff.mp h
    exact ⟨b0, b1, b2, nibbles, payload, rfl, hp, rfl⟩
  · cases h

/-- The one check that a header byte can fail (R61). -/
theorem wellFormed_hdrIndex (v : Byte) : (Instr.hdrIndex v).wellFormed = true ↔ v.toNat ≤ 88 :=
  decide_eq_true_iff

/-- Settles O41: the header bytes pass through, and packing and decoding a payload undo each other. -/
theorem framesAssembleAndDecode : Obligations.FramesAssembleAndDecode := by
  constructor
  · intro b0 b1 b2 payload h
    rw [frameOps_legal b0 b1 payload h, assembleOps, packNibbles_payloadOps]
    rfl
  · intro ops frame hwf h
    obtain ⟨b0, b1, b2, nibbles, payload, rfl, hpack, rfl⟩ := assembleOps_inv h
    have legal : b2.toNat ≤ 88 := (wellFormed_hdrIndex b2).mp (hwf _ (by simp))
    rw [frameOps_legal b0 b1 payload legal, payloadOps_of_packNibbles hpack]

/-! ### The one illegal encoding class (R61) -/

/-- No nibble is the operation HDR_INDEX. -/
theorem ofNibble_ne_hdrIndex (n : Nibble) (v : Byte) : ofNibble n ≠ .hdrIndex v := by
  intro h
  have code := nibbleCode_ofNibble n
  rw [h] at code
  cases code

theorem wellFormed_eq_false_iff (i : Instr) : i.wellFormed = false ↔ ∃ v, i = .hdrIndex v ∧ 88 < v.toNat := by
  rcases instr_cases i with ⟨v, rfl⟩ | ⟨v, rfl⟩ | ⟨v, rfl⟩ | ⟨n, rfl⟩
  · simp [Instr.wellFormed]
  · simp [Instr.wellFormed]
  · simp [Instr.wellFormed]
  · simp [wellFormed_ofNibble, ofNibble_ne_hdrIndex]

/-- Only format H2 decodes to HDR_INDEX (R54, R62). -/
theorem decode_eq_hdrIndex_iff (pos : Position) (v w : Byte) :
    decode pos v = .instr (.hdrIndex w) ↔ pos = .h2 ∧ v = w := by
  cases pos with
  | h0 | h1 | h2 | drop => simp [decode]
  | payHigh | payLow => simp [decode, ofNibble_ne_hdrIndex]

/-- A header operation never stops, whatever its byte and the state (R70 to R72). -/
theorem exec_header_next {i : Instr} (h : nibbleCode i = none) (s : State) : ∃ t, exec i s = .next t := by
  rcases instr_cases i with ⟨v, rfl⟩ | ⟨v, rfl⟩ | ⟨v, rfl⟩ | ⟨n, rfl⟩
  · simp only [exec, execHdrPvHi]
    split <;> exact ⟨_, rfl⟩
  · simp only [exec, execHdrPvLo]
    split <;> exact ⟨_, rfl⟩
  · simp only [exec, execHdrIndex]
    split
    · exact ⟨_, rfl⟩
    · split <;> exact ⟨_, rfl⟩
  · simp [nibbleCode_ofNibble] at h

/-- A seed index above 88 raises BAD_SEED_INDEX and does nothing else (R72). -/
theorem exec_hdrIndex_illegal {v : Byte} (h : 88 < v.toNat) (s : State) :
    exec (.hdrIndex v) s = .next (raiseMalformed .badSeedIndex s) :=
  if_pos h

/-- Settles O39: the ill-formed operations are the HDR_INDEX above 88, and only H2 decodes to one. -/
theorem oneIllegalEncodingClass : Obligations.OneIllegalEncodingClass := by
  refine ⟨fun pos v i hd => ?_, fun _ _ _ s _ hc => exec_header_next hc s, fun _ _ i _ hc => ?_, fun v s hwf => ?_⟩
  · rw [wellFormed_eq_false_iff]
    constructor
    · rintro ⟨w, rfl, hw⟩
      obtain ⟨rfl, rfl⟩ := (decode_eq_hdrIndex_iff pos v w).mp hd
      exact ⟨rfl, hw⟩
    · rintro ⟨rfl, hv⟩
      injection hd with hi
      exact ⟨v, hi.symm, hv⟩
  · obtain ⟨n, hn⟩ := Option.ne_none_iff_exists'.mp hc
    rw [eq_ofNibble hn]
    exact wellFormed_ofNibble n
  · obtain ⟨w, hw, illegal⟩ := (wellFormed_eq_false_iff _).mp hwf
    injection hw with hw
    subst hw
    exact ⟨_, exec_hdrIndex_illegal illegal s, rfl, rfl⟩

/-! ### The `SEED` line (R57, R64) -/

/-- The two bytes of a seed, most significant first, sign-extend back to it (R57). -/
theorem seedPv_of_bytes {pv : Int} (hlo : -32768 ≤ pv) (hhi : pv ≤ 32767) :
    seedPv (BitVec.ofInt 8 (pv % 65536 / 256)) (BitVec.ofInt 8 (pv % 256)) = pv := by
  rw [seedPv_eq, BitVec.toNat_ofInt, BitVec.toNat_ofInt]
  split <;> omega

theorem assembleSeed_admitted {pv : Int} {idx : Nat} (h : -32768 ≤ pv ∧ pv ≤ 32767 ∧ idx ≤ 255) :
    assembleSeed pv idx =
      some [BitVec.ofInt 8 (pv % 65536 / 256), BitVec.ofInt 8 (pv % 256), BitVec.ofNat 8 idx] :=
  if_pos h

theorem assembleSeed_refused {pv : Int} {idx : Nat} (h : ¬(-32768 ≤ pv ∧ pv ≤ 32767 ∧ idx ≤ 255)) :
    assembleSeed pv idx = none :=
  if_neg h

/-- Settles O42: the bytes of an admitted seed read back, the index being below 256. -/
theorem seedAssembles : Obligations.SeedAssembles := by
  intro pv idx
  refine ⟨fun hlo hhi hidx => ?_, fun h => assembleSeed_refused (by omega)⟩
  refine ⟨_, _, _, assembleSeed_admitted ⟨hlo, hhi, hidx⟩, seedPv_of_bytes hlo hhi, ?_⟩
  rw [BitVec.toNat_ofNat]
  omega

/-! ### Words of the operation map (R59, R60) -/

/-- Settles O38: each word is a closed input of the decoder. -/
theorem wordsDecode : Obligations.WordsDecode :=
  ⟨rfl, rfl, rfl, rfl, rfl, rfl⟩

end Sys2Proof.Machine
end

section
/-! The header unpacker of spec/40_header_unpack.md: what each of the three header operations writes, with
`last` and without (R70 to R72, R126 to R128), and what the three together leave (R73). -/

namespace Sys2Proof.Machine

/-! ### The three header operations (R70 to R72) -/

/-- Raised by the last beat of its frame, the error ends with it: no byte is left to discard (R157). -/
theorem raiseMalformed_last {s : State} (h : s.beatLast = true) (c : Cause) :
    raiseMalformed c s = { s with output := s.output ++ [.frameError c], phase := .h0 } := by
  simp [raiseMalformed, emit, setPhase, h]

theorem execHdrPvHi_short {v : Byte} {s : State} (h : s.beatLast = true) :
    execHdrPvHi v s = .next (raiseMalformed .shortFrame s) :=
  if_pos h

theorem execHdrPvLo_short {v : Byte} {s : State} (h : s.beatLast = true) :
    execHdrPvLo v s = .next (raiseMalformed .shortFrame s) :=
  if_pos h

theorem execHdrIndex_done {v : Byte} {s : State} (h : s.beatLast = true) (hv : v.toNat ≤ 88) :
    execHdrIndex v s = .next (endFrame (setIndex (v.setWidth 7) s)) := by
  simp [execHdrIndex, h, Nat.not_lt.mpr hv]

/-- `PV` holds a seed exactly (R11, R57). -/
theorem toInt_seedPv (hi lo : Byte) : (BitVec.ofInt 32 (seedPv hi lo)).toInt = seedPv hi lo :=
  toInt_ofInt32 (seedPv_fits hi lo)

/-- Settles O5, by the value of `last`. -/
theorem hdrPvHiHoldsByte : Obligations.HdrPvHiHoldsByte := by
  intro v s
  refine ⟨execHdrPvHi_next, fun hlast => ?_⟩
  rw [← raiseMalformed_last hlast]
  exact execHdrPvHi_short hlast

/-- Settles O6: the seed written is `seedPv`, whose 16 bits `PV` holds exactly. -/
theorem hdrPvLoWritesSeed : Obligations.HdrPvLoWritesSeed := by
  intro v s
  refine ⟨fun hlast => ⟨_, execHdrPvLo_next hlast, ?_⟩, fun hlast => ?_⟩
  · rw [setPv_pv, toInt_seedPv]
    exact ⟨seedPv_eq s.hdrHi v, seedPv_range s.hdrHi v⟩
  · rw [← raiseMalformed_last hlast]
    exact execHdrPvLo_short hlast

/-- Settles O7: a legal byte by the value of `last`, an illegal one whatever `last` is. -/
theorem hdrIndexChecksSeed : Obligations.HdrIndexChecksSeed := by
  intro v s
  simp only [← setWidth7_eq]
  refine ⟨fun legal hlast => execHdrIndex_next hlast legal, fun legal hlast => execHdrIndex_done hlast legal,
    fun illegal => exec_hdrIndex_illegal illegal s, fun idx hidx hstep => ?_⟩
  have legal : v.toNat ≤ 88 := by omega
  exact readStep_entry ((toNat_setWidth7 legal).trans hidx.symm) hstep

/-! ### The three header beats (R73) -/

section
variable {s : State} {v : Byte} {rest : List PortItem} (waiting : s.pending = none)
  (offered : s.input = .beat v false :: rest)
include waiting

/-- Taking a header beat writes nothing but the input, the beat's `last` flag and the byte count. -/
theorem acceptBeat_header (header : s.phase ≠ .pay) (last : Bool) :
    acceptBeat v last rest s =
      { s with input := rest, beatLast := last, frameBytes := nextFrameBytes s } := by
  simp [acceptBeat, header, waiting]

include offered

/-- The step of frame byte 0, where more bytes follow (R126). -/
theorem step_hdrPvHi (phase : s.phase = .h0) :
    step s = .next
      { s with hdrHi := v, phase := .h1, input := rest, beatLast := false, frameBytes := 1 } := by
  have count : nextFrameBytes s = 1 := by simp [nextFrameBytes, phase]
  rw [step_beat waiting offered (by simp [count]), acceptBeat_header waiting (by simp [phase]), phase, count]
  exact (runByte_h0 _ _).trans (execHdrPvHi_next rfl)

/-- The step of frame byte 1, where more bytes follow (R127). -/
theorem step_hdrPvLo (phase : s.phase = .h1) (short : s.frameBytes < Config.maxFrameBytes) :
    step s = .next
      { s with
        pv := BitVec.ofInt 32 (seedPv s.hdrHi v)
        phase := .h2, input := rest, beatLast := false, frameBytes := s.frameBytes + 1 } := by
  have count : nextFrameBytes s = s.frameBytes + 1 := by simp [nextFrameBytes, phase]
  rw [step_beat waiting offered (count ▸ short), acceptBeat_header waiting (by simp [phase]), phase, count]
  exact (runByte_h1 _ _).trans (execHdrPvLo_next rfl)

/-- The step of frame byte 2, a legal seed index, where more bytes follow (R128). -/
theorem step_hdrIndex (phase : s.phase = .h2) (short : s.frameBytes < Config.maxFrameBytes)
    (legal : v.toNat ≤ 88) :
    step s = .next
      { s with
        index := v.setWidth 7
        phase := .pay, input := rest, beatLast := false, frameBytes := s.frameBytes + 1 } := by
  have count : nextFrameBytes s = s.frameBytes + 1 := by simp [nextFrameBytes, phase]
  rw [step_beat waiting offered (count ▸ short), acceptBeat_header waiting (by simp [phase]), phase, count]
  exact (runByte_h2 _ _).trans (execHdrIndex_next rfl legal)

end

/-- The state that the three header beats of a frame leave, with `rest` still to come (R73). -/
def afterHeader (b0 b1 b2 : Byte) (rest : List PortItem) (s : State) : State :=
  { s with
    pv := BitVec.ofInt 32 (seedPv b0 b1)
    index := b2.setWidth 7
    hdrHi := b0
    phase := .pay
    input := rest
    beatLast := false
    frameBytes := 3 }

/-- Three header beats with a legal seed index, one step each. -/
theorem run_header {s : State} {b0 b1 b2 : Byte} {rest : List PortItem} (waiting : s.pending = none)
    (offered : s.input = .beat b0 false :: .beat b1 false :: .beat b2 false :: rest) (phase : s.phase = .h0)
    (legal : b2.toNat ≤ 88) : run 3 s = .next (afterHeader b0 b1 b2 rest s) := by
  calc run 3 s
    _ = run 2 _ := run_succ (step_hdrPvHi waiting offered phase)
    _ = run 1 _ := run_succ (step_hdrPvLo waiting rfl rfl (show 1 < 17480 by decide))
    _ = run 0 _ := run_succ (step_hdrIndex waiting rfl rfl (show 2 < 17480 by decide) legal)

/-- Settles O8: the registers are those of `afterHeader`, and the first nibble reads the seed index's entry. -/
theorem headerSeedsState : Obligations.HeaderSeedsState := by
  intro s b0 b1 b2 rest h phase waiting tables offered
  have legal : b2.toNat ≤ 88 := by omega
  have index : (b2.setWidth 7).toNat = b2.toNat := toNat_setWidth7 legal
  exact ⟨afterHeader b0 b1 b2 rest s, run_header waiting offered phase legal,
    (toInt_seedPv b0 b1).trans (seedPv_eq b0 b1), index, rfl, waiting, rfl, rfl, rfl,
    readStep_entry index (tables _)⟩

end Sys2Proof.Machine
end

section
/-! The nibble operations of spec/41_nibble_decode.md: `diff` (R84), the completion of an operation as
R89 gives it and its sixteen forms (R91 to R106), and what an operation that completes has written to
`PV`, the output and `INDEX` (R82, R85, R86). -/

namespace Sys2Proof.Machine

/-! ### The reconstructed delta (R84) -/

/-- `diff` as an integer, the bits read off the nibble's value. -/
theorem reconstructDiff_cast (step : Nat) (n : Nibble) :
    (reconstructDiff step n : Int) = (step : Int) / 8 + (if n.toNat / 4 % 2 = 1 then (step : Int) else 0)
      + (if n.toNat / 2 % 2 = 1 then (step : Int) / 2 else 0)
      + (if n.toNat % 2 = 1 then (step : Int) / 4 else 0) := by
  rw [reconstructDiff_eq]
  push_cast
  rfl

theorem magnitude_lt (n : Nibble) : magnitude n < 8 := Nat.mod_lt _ (by decide)

/-- `diff` reads the magnitude only: the sign bit is in none of its terms. -/
theorem reconstructDiff_magnitude (step : Nat) (n : Nibble) :
    reconstructDiff step n = step / 8 + (if magnitude n / 4 % 2 = 1 then step else 0)
      + (if magnitude n / 2 % 2 = 1 then step / 2 else 0) + (if magnitude n % 2 = 1 then step / 4 else 0) := by
  have bit2 : magnitude n / 4 % 2 = n.toNat / 4 % 2 := by unfold magnitude; omega
  have bit1 : magnitude n / 2 % 2 = n.toNat / 2 % 2 := by unfold magnitude; omega
  have bit0 : magnitude n % 2 = n.toNat % 2 := by unfold magnitude; omega
  rw [reconstructDiff_eq, bit2, bit1, bit0]

/-- The sum is 0 where each of its terms is: bit 2 adds the whole step, bit 1 half of it, bit 0 a
quarter, and an eighth is always there. -/
theorem reconstructDiff_eq_zero_iff {step : Nat} (n : Nibble) (positive : 1 ≤ step) :
    reconstructDiff step n = 0 ↔
      (magnitude n = 0 ∧ step < 8) ∨ (magnitude n = 1 ∧ step < 4) ∨
        ((magnitude n = 2 ∨ magnitude n = 3) ∧ step < 2) := by
  have small := magnitude_lt n
  rw [reconstructDiff_magnitude]
  split <;> split <;> split <;> omega

/-- Bit 2 of the nibble adds the whole step. -/
theorem le_reconstructDiff {n : Nibble} (large : 4 ≤ magnitude n) (step : Nat) :
    step ≤ reconstructDiff step n := by
  have small := magnitude_lt n
  have bit2 : magnitude n / 4 % 2 = 1 := by omega
  rw [reconstructDiff_magnitude, if_pos bit2]
  omega

/-- Magnitude 7 has every term. -/
theorem reconstructDiff_seven {n : Nibble} (seven : magnitude n = 7) (step : Nat) :
    reconstructDiff step n = maxDiff step := by
  rw [reconstructDiff_magnitude, seven]
  simp [maxDiff, Nat.shiftRight_eq_div_pow]

/-- Settles O13: the formula, its zeros and its bounds. -/
theorem diffLaws : Obligations.DiffLaws := fun step n positive =>
  ⟨reconstructDiff_magnitude step n, reconstructDiff_eq_zero_iff n positive,
    fun large => le_reconstructDiff large step, reconstructDiff_le step n,
    fun seven => reconstructDiff_seven seven step, maxDiff_le⟩

/-! ### The completion of a nibble operation (R89 to R106) -/

/-- Where a nibble operation completes, and the state it leaves, written out from the rules. -/
theorem exec_ofNibble_next {s : State} {idx : Fin 89} {n : Nibble} {pv' : Int}
    (hindex : s.index.toNat = idx.val) (legal : 1 ≤ stepAt s.rom idx)
    (hpv : (nibbleStep s.rom s.pv.toInt idx n).pv = pv') (lower : -2147483648 ≤ pv') (upper : pv' ≤ 2147483647) :
    exec (ofNibble n) s = .next (afterNibble s pv' (idx.val + deltaAt s.rom n)) := by
  subst hpv
  rw [exec_ofNibble, nibbleOp_next hindex legal ((fits32_iff _).2 ⟨lower, upper⟩), writeNibble_eq_afterNibble]

/-- Settles O9: the written-out `diff` and `PV'` are those of `nibbleStep`. -/
theorem nibbleOperationResult : Obligations.NibbleOperationResult := by
  intro s n idx step diff pv' hindex legal hstep hdiff hpv lower upper
  have diff_eq : (reconstructDiff (stepAt s.rom idx) n : Int) = diff := by
    rw [hdiff, hstep]
    exact reconstructDiff_cast _ n
  refine exec_ofNibble_next hindex legal ?_ lower upper
  rw [nibbleStep_pv, diff_eq, hpv]

/-- A nibble's operation moves `PV` by its `diff`, with the nibble's sign. -/
theorem movesPvBy_ofNibble (n : Nibble) {move : Int → Int}
    (hmove : ∀ step : Nat, move step =
      if n.toNat < 8 then (reconstructDiff step n : Int) else -(reconstructDiff step n : Int)) :
    MovesPvBy (ofNibble n) n.toFin move := by
  intro s idx hindex legal lower upper
  have moved : (nibbleStep s.rom s.pv.toInt idx n).pv = s.pv.toInt + move (stepAt s.rom idx) := by
    rw [nibbleStep_pv, hmove]
    split
    · rfl
    · exact Int.sub_eq_add_neg
  exact exec_ofNibble_next hindex legal moved lower upper

/-- Settles O10: at each code the move is R84's sum without its zero terms. -/
theorem positiveNibbleCodes : Obligations.PositiveNibbleCodes := by
  refine ⟨movesPvBy_ofNibble 0#4 ?_, movesPvBy_ofNibble 1#4 ?_, movesPvBy_ofNibble 2#4 ?_,
    movesPvBy_ofNibble 3#4 ?_, movesPvBy_ofNibble 4#4 ?_, movesPvBy_ofNibble 5#4 ?_,
    movesPvBy_ofNibble 6#4 ?_, movesPvBy_ofNibble 7#4 ?_⟩
  all_goals
    intro step
    simp [reconstructDiff_cast]

/-- Settles O11: at each code the move is R84's sum without its zero terms, negated. -/
theorem negativeNibbleCodes : Obligations.NegativeNibbleCodes := by
  refine ⟨movesPvBy_ofNibble 8#4 ?_, movesPvBy_ofNibble 9#4 ?_, movesPvBy_ofNibble 10#4 ?_,
    movesPvBy_ofNibble 11#4 ?_, movesPvBy_ofNibble 12#4 ?_, movesPvBy_ofNibble 13#4 ?_,
    movesPvBy_ofNibble 14#4 ?_, movesPvBy_ofNibble 15#4 ?_⟩
  all_goals
    intro step
    simp [reconstructDiff_cast]

/-! ### What an operation that completes has written (R82, R85, R86) -/

/-- What a nibble operation that completes leaves in `PV`, `INDEX` and the output, as values: `PV` holds
`PV'` exactly, not clamped. -/
theorem exec_ofNibble_writes {s t : State} {n : Nibble} (h : exec (ofNibble n) s = .next t) :
    ∃ idx : Fin 89, s.index.toNat = idx.val ∧
      t.pv.toInt = (nibbleStep s.rom s.pv.toInt idx n).pv ∧
      t.index.toNat = (nibbleStep s.rom s.pv.toInt idx n).index.val ∧
      t.output = s.output ++ [.sample (sat16 t.pv.toInt)] := by
  rw [exec_ofNibble] at h
  obtain ⟨idx, hindex, -, fits, rfl⟩ := nibbleOp_inv h
  refine ⟨idx, hindex, toInt_ofInt32 fits, toNat_index7 _, ?_⟩
  rw [writeNibble_pv, toInt_ofInt32 fits]
  rfl

/-- Settles O14: the sample is `sat16` of the `PV` written, and that `PV` is the unclamped sum. -/
theorem sampleClampedPvKept : Obligations.SampleClampedPvKept := by
  intro s t n idx hidx h
  obtain ⟨i, hi, hpv, -, hout⟩ := exec_ofNibble_writes h
  obtain rfl : i = idx := Fin.ext (hi.symm.trans hidx)
  exact ⟨sat16_eq _ ▸ hout, hpv.trans (nibbleStep_pv ..)⟩

/-- Settles O15: the index written is `nibbleStep`'s, whose sum is clamped on integers. -/
theorem indexClampSaturates : Obligations.IndexClampSaturates := by
  intro s t n h
  obtain ⟨i, hi, -, hindex, -⟩ := exec_ofNibble_writes h
  rw [hindex, hi]
  exact ⟨by omega, nibbleStep_index_cast ..⟩

end Sys2Proof.Machine
end

section
/-! The invariant of spec/42_frame_decode.md R134: it holds at reset, every step keeps it, and with a host
that keeps its length duty (R176) no step from it stops (R43, R155). -/

namespace Sys2Proof.Machine

/-! ### The registers where a nibble operation may run (R22, R43) -/

/-- The registers of a frame of which `k` nibbles are decoded: `PV` holds `pv`, which is within R22's
bound, `INDEX` holds `idx`, an address of `STEP_ROM`, and the tables are legal. -/
structure NibbleReady (k : Nat) (pv : Int) (idx : Fin 89) (s : State) : Prop where
  pv_eq : s.pv.toInt = pv
  index_eq : s.index.toNat = idx.val
  tables : s.rom.Legal
  bound : PvBound k pv

/-- A frame of at most `MAX_FRAME_BYTES` has 34954 nibbles, and the sum of each fits 32 bits (R22). -/
theorem NibbleReady.fits {k : Nat} {pv : Int} {idx : Fin 89} {s : State} (h : NibbleReady k pv idx s)
    (hk : k < 34954) (n : Nibble) : fits32 (nibbleStep s.rom pv idx n).pv = true :=
  PvBound_fits (PvBound_nibbleStep h.bound s.rom idx n) hk

theorem NibbleReady.nibbleOp {k : Nat} {pv : Int} {idx : Fin 89} {s : State} (h : NibbleReady k pv idx s)
    (hk : k < 34954) (n : Nibble) : nibbleOp n s = .next (writeNibble (nibbleStep s.rom pv idx n) s) := by
  obtain rfl := h.pv_eq
  exact nibbleOp_next h.index_eq (h.tables idx) (h.fits hk n)

theorem NibbleReady.writeNibble {k : Nat} {pv : Int} {idx : Fin 89} {s : State} (h : NibbleReady k pv idx s)
    (hk : k < 34954) (n : Nibble) :
    NibbleReady (k + 1) (nibbleStep s.rom pv idx n).pv (nibbleStep s.rom pv idx n).index
      (writeNibble (nibbleStep s.rom pv idx n) s) where
  pv_eq := toInt_ofInt32 (h.fits hk n)
  index_eq := toNat_index7 _
  tables := h.tables
  bound := PvBound_nibbleStep h.bound s.rom idx n

theorem PvBound_seedPv (hi lo : Byte) : PvBound 0 (seedPv hi lo) := by
  have := seedPv_range hi lo
  unfold PvBound
  omega

/-! ### The invariant, by phase -/

theorem nibblesDone_between {s : State} (between : s.pending = none) :
    nibblesDone s = 2 * (s.frameBytes - 3) := by
  simp [nibblesDone, between]

theorem nibblesDone_waiting {s : State} (waiting : s.pending.isSome) :
    nibblesDone s = 2 * (s.frameBytes - 3) - 1 := by
  simp [nibblesDone, waiting]

theorem eventOk_append {events : List Event} (h : ∀ e ∈ events, EventOk e) {e : Event} (he : EventOk e) :
    ∀ e' ∈ events ++ [e], EventOk e' :=
  List.forall_mem_append.2 ⟨h, List.forall_mem_singleton.2 he⟩

/-- In PAY the invariant is about the nibbles decoded so far. -/
theorem Invariant.of_pay {s : State} {pv : Int} {idx : Fin 89} (samples : ∀ e ∈ s.output, EventOk e)
    (phase : s.phase = .pay) (lower : 3 + (if s.pending.isSome then 1 else 0) ≤ s.frameBytes)
    (upper : s.frameBytes ≤ 17480) (ready : NibbleReady (nibblesDone s) pv idx s) : Invariant s where
  rom_legal := ready.tables
  pending_pay _ := phase
  bytes_h1 := by simp [phase]
  bytes_h2 := by simp [phase]
  bytes_pay _ := ⟨lower, upper⟩
  bytes_drop := by simp [phase]
  index_pay _ := by rw [ready.index_eq]; exact Nat.le_of_lt_succ idx.isLt
  pv_bound _ := by rw [ready.pv_eq]; exact ready.bound
  samples_ok := samples

theorem Invariant.nibbleReady {s : State} (h : Invariant s) (phase : s.phase = .pay) :
    ∃ pv idx, NibbleReady (nibblesDone s) pv idx s :=
  ⟨s.pv.toInt, ⟨s.index.toNat, Nat.lt_succ_of_le (h.index_pay phase)⟩, rfl, rfl, h.rom_legal,
    h.pv_bound (.inr phase)⟩

/-- Outside PAY, and so between beats, the invariant is about the byte count and the seed. -/
theorem Invariant.of_not_pay {s : State} (tables : s.rom.Legal) (samples : ∀ e ∈ s.output, EventOk e)
    (between : s.pending = none) (notPay : s.phase ≠ .pay) (h1 : s.phase = .h1 → s.frameBytes = 1)
    (h2 : s.phase = .h2 → s.frameBytes = 2 ∧ PvBound 0 s.pv.toInt)
    (drop : s.phase = .drop → 3 ≤ s.frameBytes ∧ s.frameBytes ≤ 17480) : Invariant s where
  rom_legal := tables
  pending_pay := by simp [between]
  bytes_h1 := h1
  bytes_h2 phase := (h2 phase).1
  bytes_pay phase := absurd phase notPay
  bytes_drop := drop
  index_pay phase := absurd phase notPay
  pv_bound
    | .inl phase => by
      obtain ⟨bytes, seed⟩ := h2 phase
      simpa [nibblesDone_between between, bytes] using seed
    | .inr phase => absurd phase notPay
  samples_ok := samples

/-- Settles O26: in H0 the invariant asks nothing of the three unspecified registers. -/
theorem resetMeetsInvariant : Obligations.ResetMeetsInvariant := by
  intro pv index hdrHi
  exact ⟨.of_not_pay defaultRom_legal nofun rfl nofun nofun nofun nofun,
    .of_not_pay defaultRom_legal nofun rfl nofun nofun nofun nofun⟩

/-! ### A step from the invariant -/

/-- A payload byte is in progress with `k` nibbles decoded and the next about to run, which the byte count
already covers. -/
structure InPayload (k : Nat) (s : State) : Prop where
  phase : s.phase = .pay
  begun : 4 ≤ s.frameBytes
  short : s.frameBytes ≤ 17480
  done : nibblesDone s = k + 1
  samples : ∀ e ∈ s.output, EventOk e
  ready : ∃ pv idx, NibbleReady k pv idx s

/-- The nibble operation completes, and the count of nibbles decoded catches up with the byte count. -/
theorem InPayload.nibbleOp {k : Nat} {s : State} (h : InPayload k s) (n : Nibble) :
    ∃ t, nibbleOp n s = .next t ∧ Invariant t := by
  obtain ⟨phase, begun, short, done, samples, pv, idx, ready⟩ := h
  have hk : k < 34954 := by unfold nibblesDone Config.headerBytes at done; omega
  have lower : 3 + (if s.pending.isSome then 1 else 0) ≤ s.frameBytes := by split <;> omega
  exact ⟨_, ready.nibbleOp hk n, .of_pay (eventOk_append samples (eventOk_sample ..)) phase lower short
    (done ▸ ready.writeNibble hk n : NibbleReady (nibblesDone s) _ _ _)⟩

/-- Taking the waiting nibble. -/
theorem Invariant.takePending {s : State} (h : Invariant s) (waiting : s.pending.isSome) :
    InPayload (nibblesDone s) { s with pending := none } := by
  have phase : s.phase = .pay := h.pending_pay waiting
  obtain ⟨lower, upper⟩ := h.bytes_pay phase
  have begun : 4 ≤ s.frameBytes := by rwa [if_pos waiting] at lower
  obtain ⟨pv, idx, ready⟩ := h.nibbleReady phase
  refine ⟨phase, begun, upper, ?_, h.samples_ok, pv, idx, { ready with }⟩
  rw [nibblesDone_between rfl, nibblesDone_waiting waiting]
  dsimp only
  omega

theorem nextFrameBytes_succ {s : State} (notFirst : s.phase ≠ .h0) : nextFrameBytes s = s.frameBytes + 1 := by
  unfold nextFrameBytes
  cases phase : s.phase with
  | h0 => exact absurd phase notFirst
  | h1 | h2 | pay | drop => rfl

/-- Taking a payload beat. -/
theorem Invariant.acceptBeat_pay {s : State} (h : Invariant s) (phase : s.phase = .pay) (between : s.pending = none)
    (short : nextFrameBytes s ≤ Config.maxFrameBytes) (v : Byte) (last : Bool) (rest : List PortItem) :
    InPayload (nibblesDone s) (acceptBeat v last rest s) := by
  have count : nextFrameBytes s = s.frameBytes + 1 := nextFrameBytes_succ (by simp [phase])
  obtain ⟨lower, -⟩ := h.bytes_pay phase
  have begun : 3 ≤ s.frameBytes := le_trans (Nat.le_add_right _ _) lower
  obtain ⟨pv, idx, ready⟩ := h.nibbleReady phase
  refine ⟨phase, by rw [acceptBeat_frameBytes]; omega, short, ?_, h.samples_ok, pv, idx, { ready with }⟩
  rw [nibblesDone_between between, nibblesDone_waiting (by simp [phase]), acceptBeat_frameBytes]
  omega

section
variable {s : State} (tables : s.rom.Legal) (samples : ∀ e ∈ s.output, EventOk e) (between : s.pending = none)
include tables samples between

theorem invariant_endFrame : Invariant (endFrame s) :=
  .of_not_pay tables (eventOk_append samples trivial) between nofun nofun nofun nofun

/-- A byte of a frame in error: DROP is entered at frame byte 2 and not before (R130). -/
theorem invariant_discardByte (bytes : s.beatLast = false → 3 ≤ s.frameBytes ∧ s.frameBytes ≤ 17480) :
    Invariant (discardByte s) := by
  cases last : s.beatLast with
  | true =>
    have ended : discardByte s = setPhase .h0 s := by simp [discardByte, last]
    exact ended ▸ .of_not_pay tables samples between nofun nofun nofun nofun
  | false =>
    have dropping : discardByte s = setPhase .drop s := by simp [discardByte, last]
    exact dropping ▸ .of_not_pay tables samples between nofun nofun nofun fun _ => bytes last

theorem invariant_raiseMalformed (c : Cause)
    (bytes : s.beatLast = false → 3 ≤ s.frameBytes ∧ s.frameBytes ≤ 17480) : Invariant (raiseMalformed c s) :=
  invariant_discardByte (s := emit (.frameError c) s) tables (eventOk_append samples trivial) between bytes

theorem execHdrPvHi_invariant (bytes : s.frameBytes = 1) (v : Byte) :
    ∃ t, execHdrPvHi v s = .next t ∧ Invariant t := by
  cases last : s.beatLast with
  | true => exact ⟨_, execHdrPvHi_short last, invariant_raiseMalformed tables samples between _ (by simp [last])⟩
  | false => exact ⟨_, execHdrPvHi_next last, .of_not_pay tables samples between nofun (fun _ => bytes) nofun nofun⟩

theorem execHdrPvLo_invariant (bytes : s.frameBytes = 2) (v : Byte) :
    ∃ t, execHdrPvLo v s = .next t ∧ Invariant t := by
  cases last : s.beatLast with
  | true => exact ⟨_, execHdrPvLo_short last, invariant_raiseMalformed tables samples between _ (by simp [last])⟩
  | false =>
    have seed : PvBound 0 (BitVec.ofInt 32 (seedPv s.hdrHi v)).toInt := by
      rw [toInt_seedPv]
      exact PvBound_seedPv s.hdrHi v
    exact ⟨_, execHdrPvLo_next last,
      .of_not_pay tables samples between nofun nofun (fun _ => ⟨bytes, seed⟩) nofun⟩

theorem execHdrIndex_invariant (bytes : s.frameBytes = 3) (seed : PvBound 0 s.pv.toInt) (v : Byte) :
    ∃ t, execHdrIndex v s = .next t ∧ Invariant t := by
  by_cases legal : v.toNat ≤ 88
  · cases last : s.beatLast with
    | true => exact ⟨_, execHdrIndex_done last legal, invariant_endFrame tables samples between⟩
    | false =>
      have none_done : nibblesDone s = 0 := by rw [nibblesDone_between between, bytes]
      have idx : v.toNat < 89 := Nat.lt_succ_of_le legal
      refine ⟨_, execHdrIndex_next last legal,
        .of_pay (pv := s.pv.toInt) (idx := ⟨v.toNat, idx⟩) samples rfl ?_ ?_ ?_⟩
      · simp [between, bytes]
      · simp [bytes]
      · exact ⟨rfl, toNat_setWidth7 legal, tables, (none_done ▸ seed : PvBound (nibblesDone s) _)⟩
  · exact ⟨_, exec_hdrIndex_illegal (Nat.lt_of_not_le legal) s,
      invariant_raiseMalformed tables samples between _ (by simp [bytes])⟩

end

/-- A new beat, by phase (R126 to R130). -/
theorem Invariant.runByte {s : State} (h : Invariant s) (between : s.pending = none)
    (short : nextFrameBytes s ≤ Config.maxFrameBytes) (v : Byte) (last : Bool) (rest : List PortItem) :
    ∃ t, runByte s.phase.position v (acceptBeat v last rest s) = .next t ∧ Invariant t := by
  have tables : (acceptBeat v last rest s).rom.Legal := h.rom_legal
  have samples : ∀ e ∈ (acceptBeat v last rest s).output, EventOk e := h.samples_ok
  cases phase : s.phase with
  | h0 =>
    rw [Phase.position, runByte_h0]
    exact execHdrPvHi_invariant tables samples (by simp [phase]) (by simp [nextFrameBytes, phase]) v
  | h1 =>
    rw [Phase.position, runByte_h1]
    exact execHdrPvLo_invariant tables samples (by simp [phase])
      (by simp [nextFrameBytes, phase, h.bytes_h1 phase]) v
  | h2 =>
    have bytes : s.frameBytes = 2 := h.bytes_h2 phase
    have seed : PvBound (nibblesDone s) s.pv.toInt := h.pv_bound (.inl phase)
    rw [nibblesDone_between between, bytes] at seed
    rw [Phase.position, runByte_h2]
    exact execHdrIndex_invariant tables samples (by simp [phase]) (by simp [nextFrameBytes, phase, bytes]) seed v
  | pay =>
    rw [Phase.position, runByte_payHigh]
    exact (h.acceptBeat_pay phase between short v last rest).nibbleOp _
  | drop =>
    obtain ⟨begun, -⟩ := h.bytes_drop phase
    have count : nextFrameBytes s = s.frameBytes + 1 := nextFrameBytes_succ (by simp [phase])
    exact ⟨_, rfl, invariant_discardByte tables samples (by simp [phase]) fun _ =>
      ⟨by rw [acceptBeat_frameBytes, count]; exact Nat.le_succ_of_le begun, short⟩⟩

/-- The waiting nibble, and the end of the frame with it if its beat is the last (R129). -/
theorem Invariant.step_low {s : State} (h : Invariant s) {v : Byte} (waiting : s.pending = some v) :
    ∃ t, step s = .next t ∧ Invariant t := by
  obtain ⟨u, completes, invariant⟩ := (h.takePending (by simp [waiting])).nibbleOp (lowNibble v)
  refine ⟨afterOp .payLow u, by rw [Machine.step_low waiting, completes, mapNext], ?_⟩
  rw [afterOp]
  split
  · exact invariant_endFrame invariant.rom_legal invariant.samples_ok (nibbleOp_frame completes).1.pending
  · exact invariant

/-- Settles O28: by what the step works on, the second nibble that is waiting or the head of the input. -/
theorem invariantNeverStops : Obligations.InvariantNeverStops := by
  intro s h host
  cases between : s.pending with
  | some v => exact h.step_low between
  | none =>
    cases offered : s.input with
    | nil => exact ⟨s, step_wait between offered, h⟩
    | cons item rest =>
      cases item with
      | reset =>
        exact ⟨_, step_reset between offered,
          .of_not_pay h.rom_legal h.samples_ok between nofun nofun nofun nofun⟩
      | beat v last =>
        have short := host between v last rest offered
        rw [step_beat between offered short]
        exact h.runByte between short v last rest

/-- An overlong beat is refused (R176), so where a step goes on the host has kept its duty. -/
theorem hostKeepsLength_of_step {s t : State} (h : step s = .next t) : HostKeepsLength s := by
  intro between v last rest offered
  by_contra long
  rw [step_tooLong between offered (Nat.lt_of_not_le long)] at h
  cases h

/-- Settles O27: the step that goes on is the one `invariantNeverStops` gives. -/
theorem stepKeepsInvariant : Obligations.StepKeepsInvariant := by
  intro s t h hstep
  obtain ⟨t', hstep', h'⟩ := invariantNeverStops s h (hostKeepsLength_of_step hstep)
  obtain rfl : t = t' := by injection hstep.symm.trans hstep'
  exact h'

end Sys2Proof.Machine
end

section
/-! The beats of spec/42_frame_decode.md: a payload beat is two nibble operations (R129), DROP discards its
bytes (R130), and a beat with `last` leaves `PHASE` in H0 (R131). -/

namespace Sys2Proof.Machine

/-! ### A payload beat (R129) -/

/-- The state that a payload beat leaves, given what its two nibbles compute. -/
def afterPayloadBeat (r1 r2 : NibbleResult) (last : Bool) (rest : List PortItem) (s : State) : State :=
  { s with
    pv := BitVec.ofInt 32 r2.pv
    index := BitVec.ofNat 7 r2.index.val
    output := s.output ++ [.sample r1.sample, .sample r2.sample] ++ (if last then [.frameDone] else [])
    phase := if last then .h0 else .pay
    input := rest
    beatLast := last
    frameBytes := s.frameBytes + 1 }

/-- The step that takes a payload beat runs its high nibble. -/
theorem step_payHigh {s : State} {v : Byte} {last : Bool} {rest : List PortItem} {idx : Fin 89}
    (phase : s.phase = .pay) (between : s.pending = none) (offered : s.input = .beat v last :: rest)
    (short : s.frameBytes < 17480) (index : s.index.toNat = idx.val) (legal : 1 ≤ stepAt s.rom idx)
    (fits : fits32 (nibbleStep s.rom s.pv.toInt idx (highNibble v)).pv = true) :
    step s = .next (writeNibble (nibbleStep s.rom s.pv.toInt idx (highNibble v)) (acceptBeat v last rest s)) := by
  have count : nextFrameBytes s = s.frameBytes + 1 := nextFrameBytes_succ (by simp [phase])
  rw [step_beat between offered (count ▸ short), phase, Phase.position, runByte_payHigh]
  exact nibbleOp_next index legal fits

/-- The step after it runs the low nibble, on what the high one wrote. -/
theorem step_payLow {s : State} {v : Byte} {pv : Int} {idx : Fin 89} (waiting : s.pending = some v)
    (pv_eq : s.pv.toInt = pv) (index : s.index.toNat = idx.val) (legal : 1 ≤ stepAt s.rom idx)
    (fits : fits32 (nibbleStep s.rom pv idx (lowNibble v)).pv = true) :
    step s = .next (afterOp .payLow
      (writeNibble (nibbleStep s.rom pv idx (lowNibble v)) { s with pending := none })) := by
  subst pv_eq
  rw [step_low waiting, nibbleOp_next (s := { s with pending := none }) index legal fits, mapNext]

/-- The writes of the two steps, put together. -/
theorem writeNibble_twice {s : State} (phase : s.phase = .pay) (between : s.pending = none) (r1 r2 : NibbleResult)
    (v : Byte) (last : Bool) (rest : List PortItem) :
    afterOp .payLow (writeNibble r2 { writeNibble r1 (acceptBeat v last rest s) with pending := none }) =
      afterPayloadBeat r1 r2 last rest s := by
  have count : nextFrameBytes s = s.frameBytes + 1 := nextFrameBytes_succ (by simp [phase])
  cases last <;>
    simp [afterPayloadBeat, afterOp, endFrame, writeNibble, emit, setPhase, setIndex, setPv, acceptBeat, count,
      phase, between]

/-- Settles O22: the step of the high nibble, then that of the low one. -/
theorem payloadBeatDecodesTwoNibbles : Obligations.PayloadBeatDecodesTwoNibbles := by
  rintro s v last rest idx r1 r2 phase between offered short tables index rfl rfl fits1 fits2
  calc run 2 s
    _ = run 1 _ := run_succ (step_payHigh phase between offered short index (tables idx) fits1)
    _ = run 0 _ := run_succ (step_payLow (if_pos phase) (toInt_ofInt32 fits1) (toNat_index7 _) (tables _) fits2)
    _ = .next (afterPayloadBeat _ _ last rest s) := congrArg _ (writeNibble_twice phase between _ _ v last rest)

/-! ### DROP (R130) -/

theorem step_drop {s : State} {v : Byte} {last : Bool} {rest : List PortItem} (phase : s.phase = .drop)
    (between : s.pending = none) (offered : s.input = .beat v last :: rest) (short : s.frameBytes < 17480) :
    step s = .next
      { s with
        input := rest, beatLast := last, frameBytes := s.frameBytes + 1, phase := if last then .h0 else .drop } := by
  have count : nextFrameBytes s = s.frameBytes + 1 := nextFrameBytes_succ (by simp [phase])
  rw [step_beat between offered (count ▸ short), acceptBeat_header between (by simp [phase]), phase, count]
  rfl

/-- An error raised by the last beat of its frame leaves nothing to discard. -/
theorem more_of_raiseMalformed_drop {c : Cause} {s : State} (dropped : (raiseMalformed c s).phase = .drop) :
    s.beatLast = false := by
  rw [raiseMalformed_phase] at dropped
  split at dropped
  · cases dropped
  · next more => exact Bool.eq_false_iff.mpr more

/-- Of the steps outside DROP only a bad seed index leads into it. -/
theorem drop_entered {s t : State} (h : step s = .next t) (dropped : t.phase = .drop)
    (notDrop : s.phase ≠ .drop) :
    s.phase = .h2 ∧ ∃ (v : Byte) (rest : List PortItem), s.input = .beat v false :: rest ∧ 88 < v.toNat ∧
      t.output = s.output ++ [.frameError .badSeedIndex] := by
  rcases step_cases h with ⟨v, u, -, hu, rfl⟩ | ⟨-, -, rfl⟩ | ⟨rest, -, -, rfl⟩ |
    ⟨v, last, rest, -, offered, -, ⟨-, hi⟩ | ⟨-, lo⟩ | ⟨phase, index⟩ | ⟨-, nibble⟩ | ⟨phase, -⟩⟩
  · obtain ⟨-, -, kept⟩ := nibbleOp_frame hu
    split at dropped
    · cases dropped
    · exact absurd (kept.symm.trans dropped) notDrop
  · exact absurd dropped notDrop
  · cases dropped
  · rcases execHdrPvHi_cases hi with ⟨last, rfl⟩ | ⟨-, rfl⟩
    · exact absurd last (Bool.eq_false_iff.mp (more_of_raiseMalformed_drop dropped))
    · cases dropped
  · rcases execHdrPvLo_cases lo with ⟨last, rfl⟩ | ⟨-, rfl⟩
    · exact absurd last (Bool.eq_false_iff.mp (more_of_raiseMalformed_drop dropped))
    · cases dropped
  · rcases execHdrIndex_cases index with ⟨illegal, rfl⟩ | ⟨-, -, rfl⟩ | ⟨-, -, rfl⟩
    · have notLast : last = false := more_of_raiseMalformed_drop dropped
      exact ⟨phase, v, rest, notLast ▸ offered, illegal, rfl⟩
    · cases dropped
    · cases dropped
  · obtain ⟨-, -, kept⟩ := nibbleOp_frame nibble
    exact absurd (kept.symm.trans dropped) notDrop
  · exact absurd phase notDrop

/-- Settles O23: the step in DROP, and the steps that lead into it. -/
theorem dropDiscards : Obligations.DropDiscards :=
  ⟨fun _ _ _ _ phase between offered short => step_drop phase between offered short,
    fun s _ h dropped => (Decidable.em (s.phase = .drop)).imp_right (drop_entered h dropped)⟩

/-! ### The last beat of a frame (R131) -/

/-- A last byte outside PAY ends its frame, well-formed or in error. -/
theorem runByte_last_phase {p : Phase} {v : Byte} {s t : State} (notPay : p ≠ .pay) (last : s.beatLast = true)
    (h : runByte p.position v s = .next t) : t.phase = .h0 := by
  cases p with
  | h0 =>
    rw [Phase.position, runByte_h0, execHdrPvHi_short last] at h
    injection h with h
    simp [← h, last]
  | h1 =>
    rw [Phase.position, runByte_h1, execHdrPvLo_short last] at h
    injection h with h
    simp [← h, last]
  | h2 =>
    rw [Phase.position, runByte_h2] at h
    rcases execHdrIndex_cases h with ⟨-, rfl⟩ | ⟨-, -, rfl⟩ | ⟨-, more, -⟩
    · simp [last]
    · rfl
    · simp [last] at more
  | pay => exact absurd rfl notPay
  | drop =>
    rw [Phase.position, runByte_drop] at h
    injection h with h
    simp [← h, last]

/-- A step that takes a beat is the run of its byte. -/
theorem runByte_of_step {s t : State} {v : Byte} {last : Bool} {rest : List PortItem} (between : s.pending = none)
    (offered : s.input = .beat v last :: rest) (h : step s = .next t) :
    runByte s.phase.position v (acceptBeat v last rest s) = .next t :=
  step_beat between offered (hostKeepsLength_of_step h between v last rest offered) ▸ h

theorem run_two_inv {s t : State} (h : run 2 s = .next t) : ∃ u, step s = .next u ∧ step u = .next t := by
  rw [run] at h
  split at h
  · next u hu =>
    rw [run] at h
    split at h
    · next w hw => exact ⟨u, hu, hw.trans h⟩
    · cases h
    · cases h
  · cases h
  · cases h

/-- The second nibble of a last beat ends the frame. -/
theorem step_low_last {s t : State} {v : Byte} (waiting : s.pending = some v) (last : s.beatLast = true)
    (h : step s = .next t) : t.phase = .h0 ∧ t.pending = none ∧ t.input = s.input := by
  rw [step_low waiting] at h
  obtain ⟨u, hu, rfl⟩ := mapNext_next h
  obtain ⟨frame, -⟩ := nibbleOp_frame hu
  rw [afterOp, if_pos (frame.beatLast.trans last)]
  exact ⟨rfl, frame.pending, frame.input⟩

/-- Settles O25: outside PAY by the phase, in PAY by the second of the two steps. -/
theorem lastBeatReturnsToH0 : Obligations.LastBeatReturnsToH0 := by
  intro s t v rest between offered
  refine ⟨fun notPay h => ?_, fun phase h => ?_⟩
  · have run := runByte_of_step between offered h
    have frame : OpFrame (acceptBeat v true rest s) t := runByte_frame run
    exact ⟨runByte_last_phase notPay rfl run, frame.pending.trans (if_neg notPay), frame.input⟩
  · obtain ⟨u, high, low⟩ := run_two_inv h
    have frame : OpFrame (acceptBeat v true rest s) u := runByte_frame (runByte_of_step between offered high)
    obtain ⟨ended, nothing, taken⟩ := step_low_last (frame.pending.trans (if_pos phase)) frame.beatLast low
    exact ⟨ended, nothing, taken.trans frame.input⟩

end Sys2Proof.Machine
end

section
/-! Whole frames of spec/42_frame_decode.md: what `Decode` answers (R120, R121, R134), and the step machine
against it, for one frame (R133) and for a stream of frames (R123). -/

namespace Sys2Proof.Machine

/-! ### The answers of `Decode` (R120, R159) -/

theorem frame_cases (frame : List Byte) :
    frame.length < 3 ∨ ∃ b0 b1 b2 payload, frame = b0 :: b1 :: b2 :: payload := by
  match frame with
  | [] | [_] | [_, _] => exact .inl (by simp)
  | b0 :: b1 :: b2 :: payload => exact .inr ⟨b0, b1, b2, payload, rfl⟩

theorem decodeFrame_short (rom : Rom) {frame : List Byte} (short : frame.length < 3) :
    decodeFrame rom frame = .error .shortFrame := by
  match frame, short with
  | [], _ | [_], _ | [_, _], _ => rfl

section
variable (rom : Rom) (b0 b1 : Byte) {b2 : Byte} {payload : List Byte} (fits : payload.length + 3 ≤ 17480)
include fits

theorem decodeFrame_legal (legal : b2.toNat < 89) :
    decodeFrame rom (b0 :: b1 :: b2 :: payload) =
      .ok (decodeNibbles rom (seedPv b0 b1) ⟨b2.toNat, legal⟩ (payloadNibbles payload)) :=
  (if_neg (Nat.not_lt.mpr fits)).trans (dif_pos legal)

theorem decodeFrame_badSeed (illegal : ¬b2.toNat < 89) :
    decodeFrame rom (b0 :: b1 :: b2 :: payload) = .error .badSeedIndex :=
  (if_neg (Nat.not_lt.mpr fits)).trans (dif_neg illegal)

end

/-- Settles O34: by the length, then by the seed index. -/
theorem frameErrorsExactly : Obligations.FrameErrorsExactly := by
  intro rom frame fits
  rcases frame_cases frame with short | ⟨b0, b1, b2, payload, rfl⟩
  · have absent : frame[2]? = none := List.getElem?_eq_none (Nat.le_of_lt_succ short)
    simp [decodeFrame_short rom short, absent, short]
  · by_cases legal : b2.toNat < 89
    · simp [decodeFrame_legal rom b0 b1 fits legal, Nat.le_of_lt_succ legal]
    · simp [decodeFrame_badSeed rom b0 b1 fits legal, Nat.lt_of_succ_le (Nat.le_of_not_lt legal)]

/-- Settles O32: a sample for each nibble, two nibbles for each payload byte. -/
theorem sampleCount : Obligations.SampleCount := by
  intro rom frame out h
  obtain ⟨b0, b1, b2, payload, hv, rfl, rfl⟩ := decodeFrame_ok h
  rw [decodeNibbles_length, payloadNibbles_length]
  simp only [List.length_cons]
  omega

/-- Settles O33: each sample is a value clamped by `sat16`. -/
theorem samplesSaturate : Obligations.SamplesSaturate := by
  intro rom frame out x h hx
  obtain ⟨b0, b1, b2, payload, hv, rfl, rfl⟩ := decodeFrame_ok h
  obtain ⟨j, hj⟩ := List.mem_iff_getElem?.mp hx
  rw [getElem?_decodeNibbles] at hj
  obtain ⟨n, -, rfl⟩ := Option.map_eq_some_iff.mp hj
  exact sat16_range _

/-! ### A run to the end of a frame -/

/-- From `s` the machine emits exactly `events` and comes to the end of a frame, with `rest` still to come
and the tables as they were. -/
def EndsFrame (s : State) (events : List Event) (rest : List PortItem) : Prop :=
  ∃ k t, run k s = .next t ∧ t.output = s.output ++ events ∧
    t.phase = .h0 ∧ t.pending = none ∧ t.input = rest ∧ t.rom = s.rom

theorem run_one {s t : State} (h : step s = .next t) : run 1 s = .next t := run_succ h

theorem EndsFrame.after_run {k : Nat} {s u : State} {before events : List Event} {rest : List PortItem}
    (h : run k s = .next u) (output : u.output = s.output ++ before) (rom : u.rom = s.rom)
    (ends : EndsFrame u events rest) : EndsFrame s (before ++ events) rest := by
  obtain ⟨l, t, hl, emitted, phase, between, input, kept⟩ := ends
  exact ⟨k + l, t, (run_add h).trans hl, by rw [emitted, output, List.append_assoc], phase, between, input,
    kept.trans rom⟩

/-- A last beat outside PAY ends its frame (R131). -/
theorem endsFrame_of_last {s t : State} {v : Byte} {events : List Event} {rest : List PortItem}
    (notPay : s.phase ≠ .pay) (between : s.pending = none) (offered : s.input = .beat v true :: rest)
    (h : step s = .next t) (output : t.output = s.output ++ events) : EndsFrame s events rest := by
  obtain ⟨phase, nothing, taken⟩ := (lastBeatReturnsToH0 s t v rest between offered).1 notPay h
  obtain ⟨rom, -⟩ := streamsInOrder s t h
  exact ⟨1, t, run_one h, output, phase, nothing, taken, rom⟩

/-- The first beat of what is left of a frame is its last where nothing follows it. -/
theorem frameBeats_cons (v : Byte) (bytes : List Byte) :
    frameBeats (v :: bytes) = .beat v bytes.isEmpty :: frameBeats bytes := by
  cases bytes <;> rfl

/-! ### What is left of a frame in error (R130) -/

theorem endsFrame_drop {rest : List PortItem} (v : Byte) (bytes : List Byte) {s : State} (phase : s.phase = .drop)
    (between : s.pending = none) (short : s.frameBytes + bytes.length < 17480)
    (offered : s.input = frameBeats (v :: bytes) ++ rest) : EndsFrame s [] rest := by
  induction bytes generalizing v s with
  | nil =>
    exact endsFrame_of_last (by simp [phase]) between offered (step_drop phase between offered short)
      (List.append_nil _).symm
  | cons v' bytes ih =>
    rw [List.length_cons] at short
    have first := step_drop phase between offered (by omega)
    exact EndsFrame.after_run (run_one first) (List.append_nil _).symm rfl
      (ih v' rfl between (show s.frameBytes + 1 + bytes.length < 17480 by omega) rfl)

/-! ### A payload (R129) -/

/-- Between two beats of a payload, `m` of its bytes decoded. -/
structure AtPayloadByte (m : Nat) (pv : Int) (idx : Fin 89) (s : State) : Prop where
  phase : s.phase = .pay
  between : s.pending = none
  bytes : s.frameBytes = m + 3
  ready : NibbleReady (2 * m) pv idx s

/-- The result of the first nibble of a payload byte. -/
abbrev firstNibble (rom : Rom) (pv : Int) (idx : Fin 89) (v : Byte) : NibbleResult :=
  nibbleStep rom pv idx (highNibble v)

/-- The result of the second nibble, from what the first one wrote. -/
abbrev secondNibble (rom : Rom) (pv : Int) (idx : Fin 89) (v : Byte) : NibbleResult :=
  nibbleStep rom (firstNibble rom pv idx v).pv (firstNibble rom pv idx v).index (lowNibble v)

section
variable {m : Nat} {pv : Int} {idx : Fin 89} {s : State} (h : AtPayloadByte m pv idx s) (short : m < 17477)
  (v : Byte) (last : Bool) (rest : List PortItem)
include h short

theorem AtPayloadByte.run_beat (offered : s.input = .beat v last :: rest) :
    run 2 s = .next (afterPayloadBeat (firstNibble s.rom pv idx v) (secondNibble s.rom pv idx v) last rest s) := by
  obtain ⟨phase, between, bytes, ready⟩ := h
  have first := ready.writeNibble (by omega) (highNibble v)
  obtain rfl := ready.pv_eq
  exact payloadBeatDecodesTwoNibbles s v last rest idx _ _ phase between offered (by omega) ready.tables
    ready.index_eq rfl rfl (ready.fits (by omega) _) (first.fits (by omega) (lowNibble v))

theorem AtPayloadByte.afterPayloadBeat :
    AtPayloadByte (m + 1) (secondNibble s.rom pv idx v).pv (secondNibble s.rom pv idx v).index
      (afterPayloadBeat (firstNibble s.rom pv idx v) (secondNibble s.rom pv idx v) false rest s) := by
  obtain ⟨phase, between, bytes, ready⟩ := h
  have first := ready.writeNibble (by omega) (highNibble v)
  have second := first.writeNibble (by omega) (lowNibble v)
  exact ⟨rfl, between, by simp [Machine.afterPayloadBeat, bytes, Nat.add_right_comm], { second with }⟩

end

/-- The events of what is left of a payload, from the predictor and the index so far (R120, R125). -/
abbrev payloadEvents (rom : Rom) (pv : Int) (idx : Fin 89) (payload : List Byte) : List Event :=
  frameEvents (.ok (decodeNibbles rom pv idx (payloadNibbles payload)))

theorem payloadEvents_cons (rom : Rom) (pv : Int) (idx : Fin 89) (v : Byte) (payload : List Byte) :
    payloadEvents rom pv idx (v :: payload) =
      [.sample (firstNibble rom pv idx v).sample, .sample (secondNibble rom pv idx v).sample] ++
        payloadEvents rom (secondNibble rom pv idx v).pv (secondNibble rom pv idx v).index payload := rfl

theorem endsFrame_payload {rest : List PortItem} (v : Byte) (payload : List Byte) {m : Nat} {pv : Int} {idx : Fin 89}
    {s : State} (h : AtPayloadByte m pv idx s) (short : m + payload.length < 17477)
    (offered : s.input = frameBeats (v :: payload) ++ rest) :
    EndsFrame s (payloadEvents s.rom pv idx (v :: payload)) rest := by
  induction payload generalizing v m pv idx s with
  | nil =>
    exact ⟨2, _, h.run_beat short v true rest offered, List.append_assoc .., rfl, h.between, rfl, rfl⟩
  | cons v' payload ih =>
    rw [List.length_cons] at short
    have first := h.run_beat (by omega) v false _ offered
    rw [payloadEvents_cons]
    exact EndsFrame.after_run first (List.append_nil _) rfl
      (ih v' (h.afterPayloadBeat (by omega) v _) (by omega) rfl)

/-! ### A frame (R133) -/

/-- The state that frame bytes 0 and 1 leave, where more follow. -/
def afterSeedBytes (b0 b1 : Byte) (rest : List PortItem) (s : State) : State :=
  { s with
    pv := BitVec.ofInt 32 (seedPv b0 b1)
    hdrHi := b0
    phase := .h2
    input := rest
    beatLast := false
    frameBytes := 2 }

theorem run_seedBytes {s : State} {b0 b1 : Byte} {rest : List PortItem} (phase : s.phase = .h0)
    (between : s.pending = none) (offered : s.input = .beat b0 false :: .beat b1 false :: rest) :
    run 2 s = .next (afterSeedBytes b0 b1 rest s) := by
  calc run 2 s
    _ = run 1 _ := run_succ (step_hdrPvHi between offered phase)
    _ = run 0 _ := run_succ (step_hdrPvLo between rfl rfl (show 1 < 17480 by decide))

/-- A frame that ends with its byte 0 or 1 (R126, R127). -/
theorem endsFrame_short {s : State} {v : Byte} {rest : List PortItem} (between : s.pending = none)
    (offered : s.input = .beat v true :: rest) (phase : s.phase = .h0 ∨ s.phase = .h1 ∧ s.frameBytes = 1) :
    EndsFrame s [.frameError .shortFrame] rest := by
  have header : s.phase ≠ .pay := by rcases phase with phase | ⟨phase, -⟩ <;> simp [phase]
  have raised : step s = .next (raiseMalformed .shortFrame (acceptBeat v true rest s)) := by
    rcases phase with phase | ⟨phase, bytes⟩
    · rw [step_beat between offered (by simp [nextFrameBytes, phase]), phase, Phase.position, runByte_h0]
      exact execHdrPvHi_short rfl
    · rw [step_beat between offered (by simp [nextFrameBytes, phase, bytes, Config.maxFrameBytes]), phase,
        Phase.position, runByte_h1]
      exact execHdrPvLo_short rfl
  exact endsFrame_of_last header between offered raised rfl

/-! From byte 2 on, the seed being in `PV`, the frame is well-formed or in error (R128). -/

section
variable {s : State} {v : Byte} {payload : List Byte} {rest : List PortItem} (phase : s.phase = .h2)
  (between : s.pending = none) (bytes : s.frameBytes = 2) (short : payload.length + 3 ≤ 17480)
  (offered : s.input = frameBeats (v :: payload) ++ rest)
include phase between bytes

theorem step_frameByte2 {last : Bool} {rest : List PortItem} (offered : s.input = .beat v last :: rest) :
    step s = execHdrIndex v (acceptBeat v last rest s) := by
  rw [step_beat between offered (by simp [nextFrameBytes, phase, bytes, Config.maxFrameBytes]), phase,
    Phase.position, runByte_h2]

include short offered

theorem endsFrame_badSeed (illegal : ¬v.toNat < 89) : EndsFrame s [.frameError .badSeedIndex] rest := by
  rw [frameBeats_cons] at offered
  have raised := (step_frameByte2 phase between bytes offered).trans
    (exec_hdrIndex_illegal (Nat.lt_of_succ_le (Nat.le_of_not_lt illegal)) _)
  cases payload with
  | nil => exact endsFrame_of_last (by simp [phase]) between offered raised rfl
  | cons v' payload =>
    refine EndsFrame.after_run (run_one raised) rfl rfl (endsFrame_drop v' payload rfl (by simp [phase]) ?_ rfl)
    rw [List.length_cons] at short
    simp [nextFrameBytes, phase, bytes]
    omega

theorem endsFrame_legalSeed {pv : Int} (tables : s.rom.Legal) (seed : s.pv.toInt = pv) (bound : PvBound 0 pv)
    (legal : v.toNat < 89) : EndsFrame s (payloadEvents s.rom pv ⟨v.toNat, legal⟩ payload) rest := by
  have inRange : v.toNat ≤ 88 := Nat.le_of_lt_succ legal
  rw [frameBeats_cons] at offered
  have read := step_frameByte2 phase between bytes offered
  cases payload with
  | nil =>
    exact endsFrame_of_last (by simp [phase]) between offered (read.trans (execHdrIndex_done rfl inRange)) rfl
  | cons v' payload =>
    rw [List.length_cons] at short
    have first := run_one (read.trans (execHdrIndex_next rfl inRange))
    refine EndsFrame.after_run (before := []) first (List.append_nil _).symm rfl
      (endsFrame_payload v' payload (m := 0) ⟨rfl, by simp [phase], by simp [nextFrameBytes, phase, bytes], ?_⟩
        (by omega) rfl)
    exact ⟨seed, toNat_setWidth7 inRange, tables, bound⟩

end

/-- R133 for one frame: by its length, then by its seed index. -/
theorem endsFrame_decodeFrame {s : State} {frame : List Byte} {rest : List PortItem} (phase : s.phase = .h0)
    (between : s.pending = none) (tables : s.rom.Legal) (begun : 1 ≤ frame.length) (short : frame.length ≤ 17480)
    (offered : s.input = frameBeats frame ++ rest) :
    EndsFrame s (frameEvents (decodeFrame s.rom frame)) rest := by
  match frame with
  | [b0] => exact endsFrame_short between offered (.inl phase)
  | [b0, b1] =>
    exact EndsFrame.after_run (before := []) (run_one (step_hdrPvHi between offered phase)) (List.append_nil _).symm
      rfl (endsFrame_short between rfl (.inr ⟨rfl, rfl⟩))
  | b0 :: b1 :: b2 :: payload =>
    refine EndsFrame.after_run (before := []) (run_seedBytes phase between offered) (List.append_nil _).symm rfl ?_
    by_cases legal : b2.toNat < 89
    · rw [decodeFrame_legal s.rom b0 b1 short legal]
      exact endsFrame_legalSeed (s := afterSeedBytes b0 b1 _ s) rfl between rfl short rfl tables
        (toInt_seedPv b0 b1) (PvBound_seedPv b0 b1) legal
    · rw [decodeFrame_badSeed s.rom b0 b1 short legal]
      exact endsFrame_badSeed rfl between rfl short rfl legal

/-- Settles O30: a run to the end of the frame, with the events of `Decode`. -/
theorem machineAgreesWithDecode : Obligations.MachineAgreesWithDecode :=
  fun _ _ _ phase between tables begun short offered =>
    endsFrame_decodeFrame phase between tables begun short offered

/-- Settles O31: each frame's run starts in H0 where the one before it ended. -/
theorem framesAreIndependent : Obligations.FramesAreIndependent := by
  intro s frames rest phase between tables lengths offered
  suffices ends : EndsFrame s (frames.flatMap fun f => frameEvents (decodeFrame s.rom f)) rest by
    obtain ⟨k, t, hrun, output, ended, nothing, input, -⟩ := ends
    exact ⟨k, t, hrun, output, ended, nothing, input⟩
  induction frames generalizing s with
  | nil => exact ⟨0, s, rfl, (List.append_nil _).symm, phase, between, offered, rfl⟩
  | cons frame frames ih =>
    obtain ⟨⟨begun, short⟩, others⟩ := List.forall_mem_cons.mp lengths
    rw [List.flatMap_cons, List.append_assoc] at offered
    obtain ⟨k, t, hrun, output, ended, nothing, input, rom⟩ :=
      endsFrame_decodeFrame phase between tables begun short offered
    exact EndsFrame.after_run hrun output rom (rom ▸ ih t ended nothing (rom ▸ tables) others input)

end Sys2Proof.Machine
end

section
/-! The frame accumulator of spec/43_frame_accumulator.md: the answers of one call (R141, R142, R145), and
what a sequence of calls hands over and keeps (R144, R147). -/

namespace Sys2Proof.Machine

/-! ### One call -/

section
variable {a : Accumulator} {chunk : List Byte}

theorem feed_short (mode : AccMode) (short : (a.buffer ++ chunk).length < 131) :
    a.feed mode chunk = (none, ⟨a.buffer ++ chunk⟩) :=
  if_pos short

theorem feed_drainAll (full : 131 ≤ (a.buffer ++ chunk).length) :
    a.feed .drainAll chunk = (some (a.buffer ++ chunk), ⟨[]⟩) :=
  if_neg (Nat.not_lt.mpr full)

theorem feed_strict131 (full : 131 ≤ (a.buffer ++ chunk).length) :
    a.feed .strict131 chunk = (some ((a.buffer ++ chunk).take 131), ⟨(a.buffer ++ chunk).drop 131⟩) :=
  if_neg (Nat.not_lt.mpr full)

/-- At exactly 131 bytes the modes agree (R147). -/
theorem feed_exact (mode : AccMode) (nominal : (a.buffer ++ chunk).length = 131) :
    a.feed mode chunk = (some (a.buffer ++ chunk), ⟨[]⟩) := by
  cases mode with
  | drainAll => exact feed_drainAll nominal.ge
  | strict131 => rw [feed_strict131 nominal.ge, List.take_of_length_le nominal.le, List.drop_of_length_le nominal.le]

/-- What a call hands over is no shorter than a nominal frame, and no longer in `strict131` mode (R145). -/
theorem feed_frame_length {mode : AccMode} {frame : List Byte} (handed : (a.feed mode chunk).1 = some frame) :
    131 ≤ frame.length ∧ (mode = .strict131 → frame.length = 131) := by
  rcases Nat.lt_or_ge (a.buffer ++ chunk).length 131 with short | full
  · simp [feed_short mode short] at handed
  · cases mode with
    | drainAll =>
      obtain rfl : a.buffer ++ chunk = frame := by simpa [feed_drainAll full] using handed
      exact ⟨full, nofun⟩
    | strict131 =>
      obtain rfl : (a.buffer ++ chunk).take 131 = frame := by simpa [feed_strict131 full] using handed
      have taken := List.length_take_of_le full
      exact ⟨taken.ge, fun _ => taken⟩

end

/-- Settles O43: by whether the buffer reaches 131 bytes. -/
theorem accumulatorDrainsAll : Obligations.AccumulatorDrainsAll :=
  fun _ _ => ⟨feed_drainAll, feed_short .drainAll⟩

/-! ### A sequence of calls -/

/-- Calls that together do not reach 131 bytes only fill the buffer. -/
theorem feedAll_short (mode : AccMode) (chunks : List (List Byte)) (a : Accumulator)
    (short : (a.buffer ++ chunks.flatten).length < 131) :
    Accumulator.feedAll mode chunks a = ([], ⟨a.buffer ++ chunks.flatten⟩) := by
  induction chunks generalizing a with
  | nil => simp [Accumulator.feedAll]
  | cons chunk chunks ih =>
    rw [List.flatten_cons, ← List.append_assoc] at short ⊢
    have first : a.feed mode chunk = (none, ⟨a.buffer ++ chunk⟩) :=
      feed_short mode (by rw [List.length_append] at short; omega)
    simp [Accumulator.feedAll, first, ih ⟨a.buffer ++ chunk⟩ short]

/-- A frame of a sequence of calls is the frame of one of them. -/
theorem exists_feed_of_mem_feedAll {mode : AccMode} {chunks : List (List Byte)} {a : Accumulator}
    {frame : List Byte} (handed : frame ∈ (Accumulator.feedAll mode chunks a).1) :
    ∃ (b : Accumulator) (chunk : List Byte), (b.feed mode chunk).1 = some frame := by
  induction chunks generalizing a with
  | nil => cases handed
  | cons chunk chunks ih =>
    rcases List.mem_append.mp handed with first | later
    · exact ⟨a, chunk, Option.mem_toList.mp first⟩
    · exact ih later

/-- Settles O44: the calls before 131 bytes only fill the buffer, and the modes agree at exactly 131. -/
theorem accumulatorWaitsFor131 : Obligations.AccumulatorWaitsFor131 :=
  fun mode chunks _ short => ⟨feedAll_short mode chunks ⟨[]⟩ short, feed_exact mode⟩

/-- Settles O45: by induction over the calls, each of which keeps every byte. -/
theorem accumulatorKeepsEveryByte : Obligations.AccumulatorKeepsEveryByte := by
  intro mode chunks a
  induction chunks generalizing a with
  | nil => simp [Accumulator.feedAll]
  | cons chunk chunks ih =>
    simp only [Accumulator.feedAll, List.flatten_append, List.flatten_cons, List.append_assoc]
    rw [ih, ← List.append_assoc, feed_keeps_bytes, List.append_assoc]

/-! ### No SHORT_FRAME (R144) -/

theorem decodeFrame_overlong (rom : Rom) {frame : List Byte} (overlong : 17480 < frame.length) :
    decodeFrame rom frame = .undefined :=
  if_pos overlong

/-- Not even an overlong frame is a SHORT_FRAME: `Decode` answers nothing for it (R8, R120). -/
theorem decodeFrame_ne_shortFrame (rom : Rom) {frame : List Byte} (long : 3 ≤ frame.length) :
    decodeFrame rom frame ≠ .error .shortFrame := by
  rcases Nat.lt_or_ge 17480 frame.length with overlong | fits
  · simp [decodeFrame_overlong rom overlong]
  · exact mt (frameErrorsExactly rom frame fits).1.mp (Nat.not_lt.mpr long)

/-- Settles O46: each frame is one call's, and 131 bytes are more than a header. -/
theorem accumulatedFramesAreLong : Obligations.AccumulatedFramesAreLong := by
  intro mode chunks a rom frame handed
  obtain ⟨b, chunk, fed⟩ := exists_feed_of_mem_feedAll handed
  obtain ⟨long, nominal⟩ := feed_frame_length fed
  exact ⟨long, nominal, decodeFrame_ne_shortFrame rom (Nat.le_trans (by decide) long)⟩

end Sys2Proof.Machine
end

section
/-!
The cause codes of spec/60_exceptions.md section 1: each cause's number, and that the numbers tell the
causes apart (R153).
-/
namespace Sys2Proof.Machine

@[simp] theorem causeCode_badSeedIndex : causeCode .badSeedIndex = 1 := rfl

@[simp] theorem causeCode_shortFrame : causeCode .shortFrame = 2 := rfl

/-- Code 0 and codes 3 and above are not used (R153). -/
theorem causeCode_eq_one_or_two : ∀ c, causeCode c = 1 ∨ causeCode c = 2
  | .badSeedIndex => .inl causeCode_badSeedIndex
  | .shortFrame => .inr causeCode_shortFrame

theorem causeCode_injective : Function.Injective causeCode := by
  intro c d same
  cases c <;> cases d
  case badSeedIndex.badSeedIndex | shortFrame.shortFrame => rfl
  case badSeedIndex.shortFrame | shortFrame.badSeedIndex => simp at same

/-- Settles O36: by the two causes, whose codes differ. -/
theorem causeCodes : Obligations.CauseCodes :=
  ⟨causeCode_badSeedIndex, causeCode_shortFrame, causeCode_eq_one_or_two,
    fun _ _ same => causeCode_injective same⟩

end Sys2Proof.Machine
end

section
/-!
The reset input of spec/70_reset_and_hazards.md: what it writes (R171, R172), and that no input item is taken
while the second nibble of a payload beat is waiting (R129, R171).
-/
namespace Sys2Proof.Machine

theorem endFrame_frame (s : State) : OpFrame s (endFrame s) := by constructor <;> simp

/-- What follows an operation in its beat, the end of the frame if any, has an operation's frame (R129). -/
theorem afterOp_frame (pos : Position) (s : State) : OpFrame s (afterOp pos s) := by
  have unchanged : OpFrame s s := ⟨rfl, rfl, rfl, rfl, rfl, rfl, .inl rfl⟩
  cases pos with
  | payLow =>
    rw [afterOp]
    split
    · exact endFrame_frame s
    · exact unchanged
  | h0 | h1 | h2 | payHigh | drop => exact unchanged

/-- Between the two nibble operations of a payload beat a step takes neither a beat nor a reset: the count of
resets taken stands still with the input. -/
theorem step_low_takes_no_input {s t : State} {v : Byte} (waiting : s.pending = some v) (h : step s = .next t) :
    t.input = s.input ∧ t.freeCount = s.freeCount := by
  rw [step_low waiting] at h
  obtain ⟨u, low, rfl⟩ := mapNext_next h
  obtain ⟨frame, -⟩ := nibbleOp_frame low
  have after := afterOp_frame .payLow u
  exact ⟨after.input.trans frame.input, after.freeCount.trans frame.freeCount⟩

/-- Settles O2: the state `takeReset` leaves, and the second nibble that goes before any input item. -/
theorem resetInputAbandonsFrame : Obligations.ResetInputAbandonsFrame :=
  ⟨fun _ _ between offered => ⟨_, _, _, _, step_reset between offered⟩,
    fun _ _ _ waiting h => step_low_takes_no_input waiting h⟩

end Sys2Proof.Machine
end

section
/-!
Where a nibble operation of spec/41_nibble_decode.md has no meaning (R22, R43; U2, U11 of
spec/93_implementation_defined.md), and what a run of zero nibbles decodes to (spec/95_test_vectors.md
section 1.1).
-/
namespace Sys2Proof.Machine

/-! ### Where a nibble operation stops -/

theorem readStep_absent {s : State} (outside : 88 < s.index.toNat) : readStep s = .absent :=
  dif_neg (by omega)

theorem readStep_illegal {s : State} {i : Fin 89} (hindex : s.index.toNat = i.val) (zero : stepAt s.rom i = 0) :
    readStep s = .illegal := by
  have inside : s.index.toNat < 89 := hindex ▸ i.isLt
  obtain rfl : ⟨s.index.toNat, inside⟩ = i := Fin.ext hindex
  rw [readStep, dif_pos inside, if_pos zero]

theorem nibbleOp_absent {s : State} (outside : 88 < s.index.toNat) (n : Nibble) :
    nibbleOp n s = .fault .stepRomRange := by
  rw [nibbleOp, readStep_absent outside]

theorem nibbleOp_illegal {s : State} {i : Fin 89} (hindex : s.index.toNat = i.val) (zero : stepAt s.rom i = 0)
    (n : Nibble) : nibbleOp n s = .refused .illegalStepRom := by
  rw [nibbleOp, readStep_illegal hindex zero]

theorem nibbleOp_overflow {s : State} {i : Fin 89} {n : Nibble} (hindex : s.index.toNat = i.val)
    (legal : 1 ≤ stepAt s.rom i) (overflow : ¬fits32 (nibbleStep s.rom s.pv.toInt i n).pv = true) :
    nibbleOp n s = .refused .pvOverflow := by
  simp only [nibbleOp, readStep_entry hindex legal, if_neg overflow]

/-- Settles O12: by what reading `STEP_ROM` answers, and a sum that does not fit. -/
theorem nibbleOperationStops : Obligations.NibbleOperationStops := by
  intro s n
  rw [exec_ofNibble]
  refine ⟨fun outside => nibbleOp_absent outside n, fun idx hindex zero => nibbleOp_illegal hindex zero n,
    fun idx hindex legal outside32 => nibbleOp_overflow hindex legal fun fits => ?_⟩
  obtain ⟨lower, upper⟩ := (fits32_iff _).1 fits
  exact outside32.elim (Int.not_lt.2 lower) (Int.not_lt.2 upper)

/-! ### A run of zero nibbles -/

theorem reconstructDiff_zero (step : Nat) : reconstructDiff step 0#4 = step / 8 := by
  simp [reconstructDiff_eq]

/-- A zero nibble adds `step >> 3`: it is not "no change" (R91). -/
theorem nibbleStep_zero_pv (rom : Rom) (pv : Int) (i : Fin 89) :
    (nibbleStep rom pv i 0#4).pv = pv + ((stepAt rom i / 8 : Nat) : Int) := by
  rw [nibbleStep_pv, reconstructDiff_zero]
  rfl

/-- At index 0 a delta that is not positive is clamped away (R82). -/
theorem nibbleStep_index_zero {rom : Rom} {n : Nibble} (notUp : deltaAt rom n ≤ 0) (pv : Int) :
    (nibbleStep rom pv 0 n).index = 0 := by
  have sum := nibbleStep_index_cast rom pv 0 n
  apply Fin.ext
  simp only [Fin.val_zero] at sum ⊢
  omega

/-- Settles O18, by induction on the number of nibbles: each leaves index 0 and adds the same delta. -/
theorem zeroPayloadRamp : Obligations.ZeroPayloadRamp := by
  intro rom pv k notUp
  induction k generalizing pv with
  | zero => rfl
  | succ k ih =>
    rw [List.replicate_succ, decodeNibbles, nibbleStep_index_zero notUp, nibbleStep_sample, nibbleStep_zero_pv,
      ih, List.range_succ_eq_map, List.map_cons, List.map_map]
    congr 1
    · simp
    · refine List.map_congr_left fun j _ => congrArg sat16 ?_
      push_cast
      ring

end Sys2Proof.Machine
end

section
/-!
Taking MalformedFrame (spec/60_exceptions.md section 3): a step that emits an error is exactly the entry of R157 on
the beat it took.
-/
namespace Sys2Proof.Machine

theorem nibbleOp_output {n : Nibble} {s t : State} (h : nibbleOp n s = .next t) :
    ∃ v, t.output = s.output ++ [.sample v] := by
  obtain ⟨i, -, -, -, rfl⟩ := nibbleOp_inv h
  exact ⟨_, rfl⟩

/-- The byte of a new beat that emits an error has taken it, and SHORT_FRAME is taken by a last byte only (R126 to
R128). -/
theorem runByte_error {p : Phase} {v : Byte} {s t : State} {c : Cause} (h : runByte p.position v s = .next t)
    (error : t.output = s.output ++ [.frameError c]) :
    t = raiseMalformed c s ∧ (c = .badSeedIndex ∨ s.beatLast = true) := by
  cases p with
  | h0 =>
    rw [Phase.position, runByte_h0] at h
    rcases execHdrPvHi_cases h with ⟨last, rfl⟩ | ⟨-, rfl⟩
    · obtain rfl : Cause.shortFrame = c := by simpa using error
      exact ⟨rfl, .inr last⟩
    · simp at error
  | h1 =>
    rw [Phase.position, runByte_h1] at h
    rcases execHdrPvLo_cases h with ⟨last, rfl⟩ | ⟨-, rfl⟩
    · obtain rfl : Cause.shortFrame = c := by simpa using error
      exact ⟨rfl, .inr last⟩
    · simp at error
  | h2 =>
    rw [Phase.position, runByte_h2] at h
    rcases execHdrIndex_cases h with ⟨-, rfl⟩ | ⟨-, -, rfl⟩ | ⟨-, -, rfl⟩
    · obtain rfl : Cause.badSeedIndex = c := by simpa using error
      exact ⟨rfl, .inl rfl⟩
    · simp at error
    · simp at error
  | pay =>
    rw [Phase.position, runByte_payHigh] at h
    obtain ⟨sample, out⟩ := nibbleOp_output h
    simp [out] at error
  | drop =>
    rw [Phase.position, runByte_drop] at h
    injection h with h
    simp [← h] at error

/-- Only the byte of a new beat emits an error: a second nibble emits a sample first, and a wait and a reset emit
nothing. -/
theorem step_error {s t : State} {c : Cause} (h : step s = .next t)
    (error : t.output = s.output ++ [.frameError c]) :
    ∃ v last rest, t = raiseMalformed c (acceptBeat v last rest s) ∧ (c = .badSeedIndex ∨ last = true) := by
  rcases step_cases h with ⟨v, u, -, low, rfl⟩ | ⟨-, -, rfl⟩ | ⟨rest, -, -, rfl⟩ | ⟨v, last, rest, between, offered, -⟩
  · obtain ⟨sample, out⟩ := nibbleOp_output low
    split at error <;> simp [out] at error
  · simp at error
  · simp at error
  · exact ⟨v, last, rest, runByte_error (runByte_of_step between offered h) error⟩

/-- Settles O24: taking the error writes `PHASE` alone, and DROP needs a beat that is not the last. -/
theorem errorEntry : Obligations.ErrorEntry := by
  intro s t c h error
  obtain ⟨v, last, rest, rfl, cause⟩ := step_error h error
  refine ⟨rfl, rfl, rfl, rfl, rfl, fun dropped => cause.resolve_right ?_⟩
  exact Bool.eq_false_iff.mp (more_of_raiseMalformed_drop dropped)

end Sys2Proof.Machine
end

section
/-!
What a step answers right after reset (R25), without a beat (R132) and on a beat too many (R176), and that any
other step runs the operation its byte decodes to (spec/42_frame_decode.md section 2).
-/
namespace Sys2Proof.Machine

/-- Settles O1: the fields of the reset state, and the default tables, which are legal. -/
theorem resetAwaitsFrameByteZero : Obligations.ResetAwaitsFrameByteZero :=
  ⟨rfl, rfl, rfl, rfl, defaultRom_legal⟩

/-- Settles O3: the step is a wait. -/
theorem noBeatNoChange : Obligations.NoBeatNoChange :=
  fun _ => step_wait

/-- Settles O4: outside H0 the beat is counted on top of the bytes consumed. -/
theorem overlongFrameRefused : Obligations.OverlongFrameRefused := by
  intro s v last rest between offered notFirst full
  have overlong : Config.maxFrameBytes < nextFrameBytes s := by
    rw [nextFrameBytes_succ notFirst]
    exact Nat.lt_succ_of_le full
  exact step_tooLong between offered overlong

theorem step_waiting {s : State} {v : Byte} (waiting : s.pending = some v) :
    step s = runByte .payLow v { s with pending := none } := by
  simp [step, fetch, waiting]

theorem runByte_of_decode {pos : Position} {v : Byte} {i : Instr} (decoded : decode pos v = .instr i) (s : State) :
    runByte pos v s = mapNext (afterOp pos) (exec i s) := by
  rw [runByte, decoded]

/-- The first operation of a beat is not followed by the end of the frame: a header operation has dealt with `last`
itself, and a payload beat has its second nibble to come (R126 to R129). -/
theorem afterOp_position (p : Phase) : afterOp p.position = fun s => s := by
  cases p <;> rfl

/-- Settles O21: the second nibble of the beat in progress, or the first operation of a new beat. -/
theorem stepRunsDecodedOperation : Obligations.StepRunsDecodedOperation := by
  refine ⟨fun s v i waiting decoded => ?_, fun s v last rest i between offered short decoded => ?_⟩
  · exact (step_waiting waiting).trans (runByte_of_decode decoded _)
  · rw [step_beat between offered short, runByte_of_decode decoded, afterOp_position, mapNext_id]

end Sys2Proof.Machine
end

section
/-!
The formats of spec/30_encoding.md: the position selects the format (R62), and decoding undoes encoding (R60).
-/
namespace Sys2Proof.Machine

/-- Settles O37: the decoder's branch at each position. -/
theorem positionSelectsFormat : Obligations.PositionSelectsFormat :=
  fun _ => ⟨rfl, rfl, rfl, rfl, rfl, rfl⟩

theorem decode_payHigh_payloadByte (hi lo : Nibble) : decode .payHigh (payloadByte hi lo) = .instr (ofNibble hi) := by
  rw [decode, highNibble_payloadByte]

theorem decode_payLow_payloadByte (hi lo : Nibble) : decode .payLow (payloadByte hi lo) = .instr (ofNibble lo) := by
  rw [decode, lowNibble_payloadByte]

/-- The per-instruction family `Laws.Encoding`, over all 19 operations. -/
theorem decode_encode : ∀ i : Instr, decode (homePosition i) (encode i) = .instr i
  | .hdrPvHi v => Laws.Encoding.hdrPvHi v
  | .hdrPvLo v => Laws.Encoding.hdrPvLo v
  | .hdrIndex v => Laws.Encoding.hdrIndex v
  | .nib0 => Laws.Encoding.nib0
  | .nib1 => Laws.Encoding.nib1
  | .nib2 => Laws.Encoding.nib2
  | .nib3 => Laws.Encoding.nib3
  | .nib4 => Laws.Encoding.nib4
  | .nib5 => Laws.Encoding.nib5
  | .nib6 => Laws.Encoding.nib6
  | .nib7 => Laws.Encoding.nib7
  | .nib8 => Laws.Encoding.nib8
  | .nib9 => Laws.Encoding.nib9
  | .nibA => Laws.Encoding.nibA
  | .nibB => Laws.Encoding.nibB
  | .nibC => Laws.Encoding.nibC
  | .nibD => Laws.Encoding.nibD
  | .nibE => Laws.Encoding.nibE
  | .nibF => Laws.Encoding.nibF

/-- Settles O40: each operation at its own position, and a nibble's operation in either half of a payload byte. -/
theorem encodeThenDecode : Obligations.EncodeThenDecode := by
  refine fun i => ⟨decode_encode i, fun n lo code => ?_⟩
  obtain rfl := eq_ofNibble code
  exact ⟨decode_payHigh_payloadByte n lo, decode_payLow_payloadByte lo n⟩

end Sys2Proof.Machine
end
